-- ==== Sys2Proof/Word.lean ====
section
/-! DEFINITION. The word types of the scout bytecode sequencer (spec/00_scope.md R7, R8; spec/10_state.md R20). -/

namespace Sys2Proof

/-- A byte of code, call data or linear memory, and an opcode (20_memory.md R50, R52, R54). -/
abbrev Byte := BitVec 8

/-- A 32-byte stack slot read as an unsigned 256-bit integer, the spec's `u256` (00_scope.md R8). -/
abbrev Word := BitVec 256

/-- Linear memory as flat (byte address, byte) pairs, in the flat view of 20_memory.md R58: strictly
rising addresses, no entry that holds what an unlisted address reads as (`Memory.wf`). -/
abbrev Memory := List Host.Cell

end Sys2Proof
end

