-- ==== Sys2Proof/Config.lean ====
section
/-! DEFINITION. The implementation parameters of spec/00_scope.md R6. A configuration is an input of a run
(10_state.md R34, R42): a plain value, so that a statement about every state is one about every configuration. -/

namespace Sys2Proof

/-- What byte 0x51 is (44_memory_ops.md R162). -/
inductive MloadMode where
  | placeholder
  | unknown
  deriving DecidableEq, Repr

/-- What a destination past the end of the code does (45_control.md R174). -/
inductive JumpCheck where
  | bounds
  | haltOutside
  deriving DecidableEq, Repr

/-- The parameters of R6, but for SLOT_BYTES and CELL_BYTES, which R6 calls fixed. `memInit` is MEM_INIT in the flat
view of R58 (assumption log 1). -/
structure Config where
  stackDepth     : Nat
  memCells       : Nat
  pcWidth        : Nat
  maxCodeLen     : Nat
  maxCalldataLen : Nat
  hasNot         : Bool
  hasJump        : Bool
  mloadMode      : MloadMode
  mloadByteIndex : Fin 16
  jumpCheck      : JumpCheck
  jumpdestCheck  : Bool
  strictUnknown  : Bool
  memInit        : Memory
  traceEnable    : Bool
  deriving DecidableEq, Repr

/-- CELL_BYTES (R6). -/
def Config.cellBytes : Nat := 16

/-- Linear memory's size in bytes, `MEM_CELLS * 16` (20_memory.md R54). -/
def Config.memBytes (cfg : Config) : Nat := cfg.memCells * Config.cellBytes

/-- What a flat memory address that is not listed reads as: a convention of the representation, since any
byte can be listed (DESIGN CHOICE, assumption log 1). -/
def Config.unlistedByte : Byte := 0

/-- The column "this hardware" of R6, with MEM_INIT at the value of the test vectors, all zero
(DESIGN CHOICE, assumption log 1). -/
def Config.thisHardware : Config where
  stackDepth     := 100
  memCells       := 100
  pcWidth        := 32
  maxCodeLen     := 4294967295
  maxCalldataLen := 4294967295
  hasNot         := true
  hasJump        := true
  mloadMode      := .placeholder
  mloadByteIndex := 15
  jumpCheck      := .bounds
  jumpdestCheck  := false
  strictUnknown  := false
  memInit        := []
  traceEnable    := false

end Sys2Proof
end

