-- ==== Sys2Proof/Syntax.lean ====
section
/-! DEFINITION. The 29 instructions of spec/opcode_table.json (00_scope.md R2, 30_encoding.md R75), one
constructor a row. A PUSH carries its immediate as the bit vector its bytes spell, most significant byte
first (30_encoding.md R73, R74). -/

namespace Sys2Proof

/-- The instructions in the order of the opcode table. -/
inductive Instr where
  | stop
  | add
  | mul
  | sub
  | div
  | lt
  | eq
  | iszero
  | not
  | calldataload
  | calldatasize
  | mload
  | mstore
  | jump
  | jumpi
  | jumpdest
  | push1 (imm : BitVec 8)
  | push2 (imm : BitVec 16)
  | push4 (imm : BitVec 32)
  | push29 (imm : BitVec 232)
  | dup1
  | dup2
  | dup3
  | swap1
  | swap2
  | swap3
  | ret
  | revert
  | invalid
  deriving DecidableEq, Repr

end Sys2Proof
end

