-- ==== Sys2Proof/WellFormed.lean ====
section
/-! DEFINITION. Which instructions a configuration has (the column "condition" of 30_encoding.md R75, R76),
the canonical form of memory, and which configurations are meant. -/

namespace Sys2Proof

/-- The condition of the instruction's row of R75 holds under the configuration. -/
def Instr.wellFormed (cfg : Config) : Instr → Bool
  | .not => cfg.hasNot
  | .mload => cfg.mloadMode == .placeholder
  | .jump => cfg.hasJump
  | .stop => true
  | .add => true
  | .mul => true
  | .sub => true
  | .div => true
  | .lt => true
  | .eq => true
  | .iszero => true
  | .calldataload => true
  | .calldatasize => true
  | .mstore => true
  | .jumpi => true
  | .jumpdest => true
  | .push1 _ => true
  | .push2 _ => true
  | .push4 _ => true
  | .push29 _ => true
  | .dup1 => true
  | .dup2 => true
  | .dup3 => true
  | .swap1 => true
  | .swap2 => true
  | .swap3 => true
  | .ret => true
  | .revert => true
  | .invalid => true

/-- Canonical form from address `lo` on: addresses at least `lo` and strictly rising, and no entry that holds
what an unlisted address reads as. -/
def Memory.wfFrom : Nat → Memory → Bool
  | _, [] => true
  | lo, (a, b) :: m => decide (lo ≤ a) && b != Config.unlistedByte && Memory.wfFrom (a + 1) m

/-- The canonical form of memory. -/
def Memory.wf (m : Memory) : Bool := Memory.wfFrom 0 m

/-- Every listed address is below `size`. -/
def Memory.below (size : Nat) (m : Memory) : Bool := m.all fun c => decide (c.1 < size)

/-- A configuration whose MEM_INIT is the contents of a memory of MEM_CELLS cells (R6: `MEM_CELLS * 16` bytes), in
which a program counter holds every code length (40_sequencer.md R103, 45_control.md R175) and a slot every
call-data length (46_calldata.md R183). The last two are the model's condition (assumption log 4). -/
def Config.wf (cfg : Config) : Bool :=
  cfg.memInit.wf && cfg.memInit.below cfg.memBytes &&
    decide (cfg.maxCodeLen < 2 ^ cfg.pcWidth) && decide (cfg.maxCalldataLen < 2 ^ 256)

end Sys2Proof
end

