-- ==== Sys2Proof/Decode.lean ====
section
/-! DEFINITION. Encoding and decoding (spec/30_encoding.md). The byte map stands once, in `Instr.row`; the
encoder and the decoder both read it there (92_eei_decisions.md D2). -/

namespace Sys2Proof

/-! ### Byte order (30_encoding.md R74, 20_memory.md R59) -/

/-- The number a byte string spells, its first byte most significant. -/
def beNat (bytes : List Byte) : Nat := bytes.foldl (fun acc b => acc * 256 + b.toNat) 0

/-- The `n` bytes that spell `v` modulo `256^n`, most significant first. -/
def beBytes : Nat → Nat → List Byte
  | 0, _ => []
  | n + 1, v => BitVec.ofNat 8 (v / 256 ^ n) :: beBytes n v

/-! ### The opcode table (30_encoding.md R75) -/

/-- A row of R75: the opcode byte, the number N of immediate bytes, the columns "need" and "grow". -/
structure OpRow where
  byte   : Byte
  immLen : Nat
  need   : Nat
  grow   : Bool
  deriving DecidableEq, Repr

/-- The table of R75. The byte values are the spec's (UNVERIFIED, assumption log 12). -/
def Instr.row : Instr → OpRow
  | .stop         => ⟨0x00, 0, 0, false⟩
  | .add          => ⟨0x01, 0, 2, false⟩
  | .mul          => ⟨0x02, 0, 2, false⟩
  | .sub          => ⟨0x03, 0, 2, false⟩
  | .div          => ⟨0x04, 0, 2, false⟩
  | .lt           => ⟨0x10, 0, 2, false⟩
  | .eq           => ⟨0x14, 0, 2, false⟩
  | .iszero       => ⟨0x15, 0, 1, false⟩
  | .not          => ⟨0x19, 0, 1, false⟩
  | .calldataload => ⟨0x35, 0, 1, false⟩
  | .calldatasize => ⟨0x36, 0, 0, true⟩
  | .mload        => ⟨0x51, 0, 1, false⟩
  | .mstore       => ⟨0x52, 0, 2, false⟩
  | .jump         => ⟨0x56, 0, 1, false⟩
  | .jumpi        => ⟨0x57, 0, 2, false⟩
  | .jumpdest     => ⟨0x5B, 0, 0, false⟩
  | .push1 _      => ⟨0x60, 1, 0, true⟩
  | .push2 _      => ⟨0x61, 2, 0, true⟩
  | .push4 _      => ⟨0x63, 4, 0, true⟩
  | .push29 _     => ⟨0x7C, 29, 0, true⟩
  | .dup1         => ⟨0x80, 0, 1, true⟩
  | .dup2         => ⟨0x81, 0, 2, true⟩
  | .dup3         => ⟨0x82, 0, 3, true⟩
  | .swap1        => ⟨0x90, 0, 2, false⟩
  | .swap2        => ⟨0x91, 0, 3, false⟩
  | .swap3        => ⟨0x92, 0, 4, false⟩
  | .ret          => ⟨0xF3, 0, 0, false⟩
  | .revert       => ⟨0xFD, 0, 0, false⟩
  | .invalid      => ⟨0xFE, 0, 0, false⟩

/-- The opcode byte. -/
def Instr.opcode (i : Instr) : Byte := i.row.byte

/-- N, the number of immediate bytes (R72). -/
def Instr.immLen (i : Instr) : Nat := i.row.immLen

/-- The smallest `sp` the instruction accepts (40_sequencer.md R106). -/
def Instr.need (i : Instr) : Nat := i.row.need

/-- The instruction needs a free slot (40_sequencer.md R107). -/
def Instr.grow (i : Instr) : Bool := i.row.grow

/-- The immediate as a number; 0 for an instruction that has none. -/
def Instr.immValue : Instr → Nat
  | .push1 imm => imm.toNat
  | .push2 imm => imm.toNat
  | .push4 imm => imm.toNat
  | .push29 imm => imm.toNat
  | .stop | .add | .mul | .sub | .div | .lt | .eq | .iszero | .not | .calldataload | .calldatasize | .mload
  | .mstore | .jump | .jumpi | .jumpdest | .dup1 | .dup2 | .dup3 | .swap1 | .swap2 | .swap3 | .ret | .revert
  | .invalid => 0

/-- The instruction with the immediate `v`; itself where it has none. -/
def Instr.withImm : Instr → Nat → Instr
  | .push1 _, v => .push1 (BitVec.ofNat 8 v)
  | .push2 _, v => .push2 (BitVec.ofNat 16 v)
  | .push4 _, v => .push4 (BitVec.ofNat 32 v)
  | .push29 _, v => .push29 (BitVec.ofNat 232 v)
  | .stop, _ => .stop
  | .add, _ => .add
  | .mul, _ => .mul
  | .sub, _ => .sub
  | .div, _ => .div
  | .lt, _ => .lt
  | .eq, _ => .eq
  | .iszero, _ => .iszero
  | .not, _ => .not
  | .calldataload, _ => .calldataload
  | .calldatasize, _ => .calldatasize
  | .mload, _ => .mload
  | .mstore, _ => .mstore
  | .jump, _ => .jump
  | .jumpi, _ => .jumpi
  | .jumpdest, _ => .jumpdest
  | .dup1, _ => .dup1
  | .dup2, _ => .dup2
  | .dup3, _ => .dup3
  | .swap1, _ => .swap1
  | .swap2, _ => .swap2
  | .swap3, _ => .swap3
  | .ret, _ => .ret
  | .revert, _ => .revert
  | .invalid, _ => .invalid

/-- One instruction of every row, a PUSH with the immediate 0: what the decoder searches. -/
def Instr.templates : List Instr :=
  [.stop, .add, .mul, .sub, .div, .lt, .eq, .iszero, .not, .calldataload, .calldatasize, .mload, .mstore, .jump, .jumpi] ++
  [.jumpdest, .push1 0, .push2 0, .push4 0, .push29 0, .dup1, .dup2, .dup3, .swap1, .swap2, .swap3, .ret, .revert, .invalid]

/-! ### Encoder and decoder -/

/-- The bytes of an instruction: the opcode, then the immediate, most significant byte first (R70, R74). -/
def encode (i : Instr) : List Byte := i.opcode :: beBytes i.immLen i.immValue

/-- What a byte string begins with. -/
inductive Decoded where
  /-- The instruction, and the bytes after it. -/
  | instr (i : Instr) (rest : List Byte)
  /-- `Unknown(b)` of R76: no row whose condition holds has this byte. -/
  | unknown (b : Byte)
  /-- A PUSH (its immediate shown as 0) with fewer than N bytes after its opcode (41_push.md R121). -/
  | truncated (i : Instr)
  /-- No byte at all. -/
  | empty
  deriving DecidableEq, Repr

/-- The row of R75 a byte selects under a configuration (R71, R76): all 8 bits are compared. -/
def decodeOp (cfg : Config) (b : Byte) : Option Instr :=
  Instr.templates.find? fun i => i.opcode == b && i.wellFormed cfg

/-- The decoder, total on byte strings (R72, R73, R74, R76). -/
def decode (cfg : Config) : List Byte → Decoded
  | [] => .empty
  | b :: rest =>
    match decodeOp cfg b with
    | none => .unknown b
    | some i =>
      if rest.length < i.immLen then .truncated i
      else .instr (i.withImm (beNat (rest.take i.immLen))) (rest.drop i.immLen)

/-! ### The host's view of an instruction word -/

/-- The length in bytes of the longest instruction, PUSH29 (R72). -/
def maxInstrBytes : Nat := 30

/-- The 30 bytes of an instruction whose bits are the low `nbits` of `w`: bit 0 of `w` is the least
significant bit of the first byte; the bits above `nbits` are 0. -/
def tableBytes (nbits w : Nat) : List Byte :=
  (List.range maxInstrBytes).map fun k => BitVec.ofNat 8 (w % 2 ^ nbits / 256 ^ k)

/-- The instruction the decoder reads from such a word in this hardware's configuration. -/
def decodeTableWord (nbits w : Nat) : Option Instr :=
  match decode Config.thisHardware (tableBytes nbits w) with
  | .instr i _ => some i
  | .unknown _ => none
  | .truncated _ => none
  | .empty => none

end Sys2Proof
end

