-- ==== Sys2Proof/Machine/State.lean ====
section
/-! DEFINITION. The architectural state of spec/10_state.md R20, the inputs of a run (R34), the outcomes of a
step, and the state after reset (R35). -/

namespace Sys2Proof.Machine

/-- STATUS (10_state.md R28). -/
inductive Status where
  | running
  | halted
  | faulted
  deriving DecidableEq, Repr

/-- HALT_CODE (10_state.md R29). -/
inductive HaltCode where
  | none
  | endOfCode
  | stop
  | ret
  | revert
  | invalid
  | unknownOpcode
  deriving DecidableEq, Repr

/-- FAULT_CODE (10_state.md R30). -/
inductive FaultCode where
  | none
  | stackUnderflow
  | stackOverflow
  | memoryOutOfRange
  | invalidJumpTarget
  | immediateOutOfRange
  | unknownOpcode
  deriving DecidableEq, Repr

/-- An event of the trace port: `(pc_op, op)` (10_state.md R46). -/
structure TraceEvent where
  pcOp : Nat
  op   : Byte
  deriving DecidableEq, Repr

/-- The state of R20 (the first nine fields), the inputs of the run (R34: `code`, `calldata`, `cfg`), which
no step writes (assumption log 3), and the events the trace port has emitted, the latest first (assumption
log 8). -/
structure State where
  /-- The address of the next opcode, a number of PC_WIDTH bits (R21; assumption log 4). -/
  pc        : Nat
  /-- The cursor: how many slots are live (R23). -/
  sp        : Nat
  /-- `S[0..STACK_DEPTH-1]`, dead slots included (R24, R25). -/
  stack     : List Word
  /-- Linear memory (R27) in the flat view of R58. -/
  mem       : Memory
  status    : Status
  haltCode  : HaltCode
  faultCode : FaultCode
  /-- END_PC (R31). -/
  endPc     : Nat
  /-- END_OPCODE (R31). -/
  endOpcode : Byte
  /-- CODE (R34). -/
  code      : List Byte
  /-- CALLDATA (R34). -/
  calldata  : List Byte
  /-- The configuration (00_scope.md R6, R34). -/
  cfg       : Config
  /-- What the trace port has emitted (R46). -/
  trace     : List TraceEvent
  deriving DecidableEq, Repr

/-- Why the model stops where the block has no state to be in. The block's own faults (R200 to R207) are next
states with STATUS = Faulted, not these. -/
inductive Fault where
  /-- Raised by `checked`, the stack checks every instruction that touches the stack shares, when the
  state's stack is not STACK_DEPTH slots long or its cursor is above STACK_DEPTH: a slot the instruction
  would touch need not exist (R23, R24). No state the block can be in raises it. Safe. -/
  | noSuchSlot
  deriving DecidableEq, Repr

/-- Why the model gives no meaning. -/
inductive Refusal where
  /-- Raised by an arm of `exec` that has no meaning yet. Safe. -/
  | notModelled (mnemonic : String)
  /-- Raised by `drive` when the Boundary Adapter changes an input of a run before it has ended
  (70_reset_and_hazards.md R235). Safe. -/
  | inputsChanged
  /-- Raised by `drive` when the Boundary Adapter presents inputs that R6 or R34 exclude. Safe. -/
  | inputsOutOfRange
  deriving DecidableEq, Repr

/-- The outcome of a step. -/
abbrev Result := Host.Outcome State Fault Refusal

/-- The state after reset (R35), with this hardware's configuration and no program presented yet (assumption
log 5); every stack slot, which R35 leaves unspecified, is 0 (assumption log 2). -/
def State.reset : State where
  pc        := 0
  sp        := 0
  stack     := List.replicate 100 0
  mem       := []
  status    := .running
  haltCode  := .none
  faultCode := .none
  endPc     := 0
  endOpcode := 0
  code      := []
  calldata  := []
  cfg       := Config.thisHardware
  trace     := []

end Sys2Proof.Machine
end

