-- ==== Sys2Proof/Machine/Ops.lean ====
section
/-! DEFINITION. The named operations every instruction is written with: memory, code, stack and cursor, the
trace port, entering a fault (R201) and a halt (R211), and the reset that alone starts a new run (R212, R230). -/

namespace Sys2Proof

/-! ### Linear memory in the flat view (20_memory.md R58) -/

/-- The byte at a flat address. -/
def Memory.read : Memory → Nat → Byte
  | [], _ => Config.unlistedByte
  | (x, c) :: m, a => if x = a then c else Memory.read m a

/-- Store a byte at a flat address, keeping the canonical form. -/
def Memory.write : Memory → Nat → Byte → Memory
  | [], a, b => if b = Config.unlistedByte then [] else [(a, b)]
  | (x, c) :: m, a, b =>
    if a < x then (if b = Config.unlistedByte then (x, c) :: m else (a, b) :: (x, c) :: m)
    else if a = x then (if b = Config.unlistedByte then m else (a, b) :: m)
    else (x, c) :: Memory.write m a b

/-- Store a byte string at rising addresses from `a`. -/
def Memory.writeBytes : Memory → Nat → List Byte → Memory
  | m, _, [] => m
  | m, a, b :: bs => Memory.writeBytes (m.write a b) (a + 1) bs

end Sys2Proof

namespace Sys2Proof.Machine

/-- The flat address of byte `k` of cell `c` (R58). -/
def flatAddr (c k : Nat) : Nat := c * Config.cellBytes + k

/-- `MemRead(c, k)` (00_scope.md R9). -/
def State.memRead (s : State) (c k : Nat) : Byte := s.mem.read (flatAddr c k)

/-- `MemWrite(c, k, b)` for k = 0, 1, … over the bytes of one cell (00_scope.md R9). -/
def writeCell (m : Memory) (c : Nat) (bytes : List Byte) : Memory := m.writeBytes (flatAddr c 0) bytes

/-! ### Code (20_memory.md R50, R51) -/

/-- CODE_LEN. -/
def State.codeLen (s : State) : Nat := s.code.length

/-- CALLDATA_LEN. -/
def State.calldataLen (s : State) : Nat := s.calldata.length

/-- `Code(a)`; none for `a >= CODE_LEN`, where the block never reads (R51). -/
def State.codeByte (s : State) (a : Nat) : Option Byte := s.code[a]?

/-! ### Updates of one piece of state -/

/-- A number as the program counter holds it: PC_WIDTH bits (10_state.md R21). Nothing is lost where the code is no
longer than MAX_CODE_LEN (R22; assumption log 4). -/
def State.toPc (s : State) (p : Nat) : Nat := p % 2 ^ s.cfg.pcWidth

/-- `pc <- p`. -/
def State.setPc (s : State) (p : Nat) : State := { s with pc := s.toPc p }

/-- `sp <- n`. -/
def State.setSp (s : State) (n : Nat) : State := { s with sp := n }

/-- `S[i] <- v`. -/
def State.setSlot (s : State) (i : Nat) (v : Word) : State := { s with stack := s.stack.set i v }

/-- Linear memory becomes `m`. -/
def State.setMem (s : State) (m : Memory) : State := { s with mem := m }

/-- `S[i]`. `checked` guards every use, so that the slot exists and the 0 is never read. -/
def State.slot (s : State) (i : Nat) : Word := s.stack.getD i 0

/-- `pc <- pc_op + 1 + n`: the incrementer past the opcode and `n` immediate bytes (40_sequencer.md R103, R104). -/
def State.advance (s : State) (n : Nat) : State := s.setPc (s.pc + 1 + n)

/-! ### The trace port (10_state.md R46) -/

/-- The event of a fetch of the byte `op`, emitted when TRACE_ENABLE (40_sequencer.md R102). -/
def State.emit (s : State) (op : Byte) : State :=
  if s.cfg.traceEnable then { s with trace := ⟨s.pc, op⟩ :: s.trace } else s

/-! ### Entering a fault and a halt (60_exceptions.md) -/

/-- Fault entry (R201) in the step whose opcode `op` stands at the current `pc`. -/
def State.enterFault (s : State) (f : FaultCode) (op : Byte) : State :=
  { s with status := .faulted, faultCode := f, endPc := s.pc, endOpcode := op }

/-- Halt entry (R211) in the step whose opcode `op` stands at the current `pc`. -/
def State.enterHalt (s : State) (h : HaltCode) (op : Byte) : State :=
  { s with status := .halted, haltCode := h, endPc := s.pc, endOpcode := op, pc := s.toPc s.codeLen }

/-- `raise f`, in the instruction `i`. -/
def raise (f : FaultCode) (i : Instr) (s : State) : Result := .next (s.enterFault f i.opcode)

/-- `halt h`, in the instruction `i`. -/
def halt (h : HaltCode) (i : Instr) (s : State) : Result := .next (s.enterHalt h i.opcode)

/-- The end-of-code halt: no opcode, END_OPCODE = 0 (40_sequencer.md R101, 60_exceptions.md R211). -/
def endOfCode (s : State) : Result := .next (s.enterHalt .endOfCode 0)

/-- An unknown opcode `op`: a halt, or a fault under STRICT_UNKNOWN (47_halt.md R195). -/
def unknownOpcode (op : Byte) (s : State) : Result :=
  if s.cfg.strictUnknown then .next (s.enterFault .unknownOpcode op) else .next (s.enterHalt .unknownOpcode op)

/-! ### Reset (70_reset_and_hazards.md R230, R234): there is no return from a fault or a halt but this (R212) -/

/-- The state in which a run starts on the given inputs (10_state.md R35, R234 steps 1 to 4). -/
def State.boot (cfg : Config) (code calldata : List Byte) : State where
  pc        := 0
  sp        := 0
  stack     := List.replicate cfg.stackDepth 0
  mem       := cfg.memInit
  status    := .running
  haltCode  := .none
  faultCode := .none
  endPc     := 0
  endOpcode := 0
  code      := code
  calldata  := calldata
  cfg       := cfg
  trace     := []

/-- The `reset` input, which may be asserted in any state: a new run on the same inputs (R230, R233). -/
def State.assertReset (s : State) : State := State.boot s.cfg s.code s.calldata

/-! ### The stack checks (40_sequencer.md R106 to R108) -/

/-- The stack and cursor are shaped as R23 and R24 say. -/
def State.slotsExist (s : State) : Bool :=
  s.stack.length == s.cfg.stackDepth && decide (s.sp ≤ s.cfg.stackDepth)

/-- The underflow check, then the overflow check, then `body`, the rule of the instruction `i`. Between them
the model's own guard: a state whose slots are not those of R24 stops (assumption log 7). -/
def checked (i : Instr) (s : State) (body : Result) : Result :=
  if s.sp < i.need then raise .stackUnderflow i s
  else if i.grow && s.sp == s.cfg.stackDepth then raise .stackOverflow i s
  else if s.slotsExist then body
  else .fault .noSuchSlot

end Sys2Proof.Machine
end

