-- ==== Sys2Proof/Machine/Operands.lean ====
section
/-! DEFINITION. The operand forms: slots relative to the cursor (spec/10_state.md R23, R36), immediates
(30_encoding.md R74), the bytes of a word (00_scope.md R8), cell indexes (20_memory.md R56, R57), call-data
bytes (46_calldata.md R180) and jump targets (45_control.md R174). -/

namespace Sys2Proof.Machine

/-! ### Words and bytes -/

/-- Byte `k` of a slot: byte 0 is the most significant (00_scope.md R7, R8). -/
def wordByte (w : Word) (k : Nat) : Byte := BitVec.ofNat 8 (w.toNat / 256 ^ (31 - k))

/-- The 32 bytes of a slot in order (00_scope.md R8). -/
def wordBytes (w : Word) : List Byte := beBytes 32 w.toNat

/-- The slot whose 32 bytes are `bytes`, byte 0 first (00_scope.md R8). -/
def wordOfBytes (bytes : List Byte) : Word := BitVec.ofNat 256 (beNat bytes)

/-- `zext_256` of an immediate (30_encoding.md R74). -/
def zext256 {n : Nat} (imm : BitVec n) : Word := imm.setWidth 256

/-! ### Slots relative to the cursor -/

/-- `S[sp - d]`: d = 1 is the top of stack (10_state.md R23). -/
def State.fromTop (s : State) (d : Nat) : Word := s.slot (s.sp - d)

/-- `S[sp - d] <- v`. -/
def State.setFromTop (s : State) (d : Nat) (v : Word) : State := s.setSlot (s.sp - d) v

/-- `sp <- sp - n`: the popped slots keep their values (10_state.md R25). -/
def State.pop (s : State) (n : Nat) : State := s.setSp (s.sp - n)

/-- `S[sp] <- v; sp <- sp + 1`. -/
def State.push (s : State) (v : Word) : State := (s.setSlot s.sp v).setSp (s.sp + 1)

/-! ### Memory-ids -/

/-- `id / 16` over all 256 bits (20_memory.md R56). -/
def cellIndex (id : Word) : Nat := id.toNat / Config.cellBytes

/-- The range check of one cell (20_memory.md R57). -/
def State.cellExists (s : State) (c : Nat) : Bool := decide (c < s.cfg.memCells)

/-! ### Call data -/

/-- `CalldataByte(a)`: 0 past the end (46_calldata.md R180). -/
def State.calldataByte (s : State) (a : Nat) : Byte := s.calldata.getD a 0

/-- The 32 call-data bytes from `off` on, `off + k` unbounded (46_calldata.md R181). -/
def State.calldataWord (s : State) (off : Nat) : Word :=
  wordOfBytes ((List.range 32).map fun k => s.calldataByte (off + k))

/-! ### Jump targets -/

/-- `resolve_target(dest)`, compared as unbounded integers; none where it raises InvalidJumpTarget
(45_control.md R174, R175). -/
def State.resolveTarget (s : State) (dest : Word) : Option Nat :=
  if s.codeLen ≤ dest.toNat then
    match s.cfg.jumpCheck with
    | .bounds => none
    | .haltOutside => some s.codeLen
  else if s.cfg.jumpdestCheck && s.codeByte dest.toNat != some Instr.jumpdest.opcode then none
  else some dest.toNat

end Sys2Proof.Machine
end

