-- ==== Sys2Proof/Machine/Flags.lean ====
section
/-! DEFINITION. The block has no flags: a condition is a word 0 or 1 on the stack, and JUMPI takes any nonzero
word as true (spec/10_state.md R32). The condition values stand here. -/

namespace Sys2Proof.Machine

/-- A condition as a word: byte 31 is 0 or 1, the others 0 (43_arithmetic.md R145). -/
def boolWord (p : Bool) : Word := if p then 1 else 0

/-- LT: unsigned (43_arithmetic.md R145). -/
def ltWord (a b : Word) : Word := boolWord (decide (a.toNat < b.toNat))

/-- EQ: all 32 bytes (43_arithmetic.md R146). -/
def eqWord (a b : Word) : Word := boolWord (a == b)

/-- ISZERO: all 32 bytes are 0 (43_arithmetic.md R148). -/
def isZeroWord (a : Word) : Word := boolWord (a == 0)

/-- What JUMPI takes as true (45_control.md R170). -/
def isTaken (cond : Word) : Bool := cond != 0

end Sys2Proof.Machine
end

