-- ==== Sys2Proof/Machine/Arith.lean ====
section
/-! DEFINITION. ADD, MUL, SUB, DIV, LT, EQ, ISZERO, NOT (spec/43_arithmetic.md): total functions of unsigned
words, no fault on any operand (R150, 60_exceptions.md R208). -/

namespace Sys2Proof.Machine

/-- DIV: floor, and 0 for a divisor 0 (R144). -/
def divWord (a b : Word) : Word := if b = 0 then 0 else a / b

/-- The binary rule (R140): a = top, b = second, the result in the second's slot. -/
def binary (i : Instr) (f : Word → Word → Word) (s : State) : Result :=
  checked i s (.next (((s.setFromTop 2 (f (s.fromTop 1) (s.fromTop 2))).pop 1).advance 0))

/-- The unary rule (R147): in place on the top. -/
def unary (i : Instr) (g : Word → Word) (s : State) : Result :=
  checked i s (.next ((s.setFromTop 1 (g (s.fromTop 1))).advance 0))

/-- ADD modulo 2^256 (R141). -/
def execAdd (s : State) : Result := binary .add (fun a b => a + b) s

/-- MUL modulo 2^256 (R142). -/
def execMul (s : State) : Result := binary .mul (fun a b => a * b) s

/-- SUB modulo 2^256, top minus second (R143). -/
def execSub (s : State) : Result := binary .sub (fun a b => a - b) s

/-- DIV, top over second (R144). -/
def execDiv (s : State) : Result := binary .div divWord s

/-- LT, top below second (R145). -/
def execLt (s : State) : Result := binary .lt ltWord s

/-- EQ (R146). -/
def execEq (s : State) : Result := binary .eq eqWord s

/-- ISZERO (R148). -/
def execIszero (s : State) : Result := unary .iszero isZeroWord s

/-- NOT, all 256 bits (R149). -/
def execNot (s : State) : Result := unary .not (fun a => ~~~a) s

end Sys2Proof.Machine
end

