-- ==== Sys2Proof/Machine/Calldata.lean ====
section
/-! DEFINITION. CALLDATALOAD and CALLDATASIZE (spec/46_calldata.md). -/

namespace Sys2Proof.Machine

/-- CALLDATALOAD (R181): in place on the top, no fault for any offset. -/
def execCalldataload (s : State) : Result :=
  checked .calldataload s (.next ((s.setFromTop 1 (s.calldataWord (s.fromTop 1).toNat)).advance 0))

/-- CALLDATASIZE (R182, R183). -/
def execCalldatasize (s : State) : Result :=
  checked .calldatasize s (.next ((s.push (BitVec.ofNat 256 s.calldataLen)).advance 0))

end Sys2Proof.Machine
end

