-- ==== Sys2Proof/Machine/Control.lean ====
section
/-! DEFINITION. JUMP, JUMPI, JUMPDEST (spec/45_control.md). -/

namespace Sys2Proof.Machine

/-- Pop `n` slots and go to `dest`, or raise InvalidJumpTarget and pop nothing (R170, R172, R174). -/
def jumpTo (i : Instr) (dest : Word) (n : Nat) (s : State) : Result :=
  match s.resolveTarget dest with
  | some t => .next ((s.pop n).setPc t)
  | none => raise .invalidJumpTarget i s

/-- JUMP (R172). -/
def execJump (s : State) : Result := checked .jump s (jumpTo .jump (s.fromTop 1) 1 s)

/-- JUMPI (R170): destination on top, condition below; not taken, the destination is not checked. -/
def execJumpi (s : State) : Result :=
  checked .jumpi s <|
    if isTaken (s.fromTop 2) then jumpTo .jumpi (s.fromTop 1) 2 s else .next ((s.pop 2).advance 0)

/-- JUMPDEST (R176): it touches no slot, so the stack checks (need 0, grow 0) have nothing to check. -/
def execJumpdest (s : State) : Result := .next (s.advance 0)

end Sys2Proof.Machine
end

