-- ==== Sys2Proof/Machine/Halts.lean ====
section
/-! DEFINITION. STOP, RETURN, REVERT, INVALID (spec/47_halt.md R190 to R194): normal halts that read and pop
nothing, so the stack checks (need 0, grow 0) have nothing to check. -/

namespace Sys2Proof.Machine

/-- STOP (R191). -/
def execStop (s : State) : Result := halt .stop .stop s

/-- RETURN (R192): the Boundary Adapter takes its byte range from the final state. -/
def execReturn (s : State) : Result := halt .ret .ret s

/-- REVERT (R193): no rollback. -/
def execRevert (s : State) : Result := halt .revert .revert s

/-- INVALID (R194): a halt, under STRICT_UNKNOWN too. -/
def execInvalid (s : State) : Result := halt .invalid .invalid s

end Sys2Proof.Machine
end

