-- ==== Sys2Proof/Machine/LinearMemory.lean ====
section
/-! DEFINITION. MSTORE and MLOAD (spec/44_memory_ops.md; 20_memory.md R56 to R58). -/

namespace Sys2Proof.Machine

/-- The two cell writes of MSTORE: the high half to cell `c`, the low half to the next (R160, R161). -/
def storeWord (m : Memory) (c : Nat) (v : Word) : Memory :=
  writeCell (writeCell m c ((wordBytes v).take 16)) (c + 1) ((wordBytes v).drop 16)

/-- MSTORE (R160): id on top, value below; the range check before any write (20_memory.md R57). -/
def execMstore (s : State) : Result :=
  checked .mstore s <|
    if s.cellExists (cellIndex (s.fromTop 1) + 1) then
      .next (((s.setMem (storeWord s.mem (cellIndex (s.fromTop 1)) (s.fromTop 2))).pop 2).advance 0)
    else raise .memoryOutOfRange .mstore s

/-- MLOAD (R163): byte MLOAD_BYTE_INDEX of cell `id / 16 + 1`, in place on the top. -/
def execMload (s : State) : Result :=
  checked .mload s <|
    if s.cellExists (cellIndex (s.fromTop 1) + 1) then
      .next ((s.setFromTop 1
        (zext256 (s.memRead (cellIndex (s.fromTop 1) + 1) s.cfg.mloadByteIndex.val))).advance 0)
    else raise .memoryOutOfRange .mload s

end Sys2Proof.Machine
end

