-- ==== Sys2Proof/Machine/Push.lean ====
section
/-! DEFINITION. PUSH1, PUSH2, PUSH4, PUSH29 (spec/41_push.md). -/

namespace Sys2Proof.Machine

/-- PUSHN, the shared rule (R120, R121), for the instruction `i` with the zero-extended immediate `v`. -/
def pushImmediate (i : Instr) (v : Word) (s : State) : Result :=
  checked i s <|
    if s.codeLen < s.pc + 1 + i.immLen then raise .immediateOutOfRange i s
    else .next ((s.push v).advance i.immLen)

/-- PUSH1 (R122). -/
def execPush1 (imm : BitVec 8) (s : State) : Result := pushImmediate (.push1 imm) (zext256 imm) s

/-- PUSH2 (R123). -/
def execPush2 (imm : BitVec 16) (s : State) : Result := pushImmediate (.push2 imm) (zext256 imm) s

/-- PUSH4 (R124). -/
def execPush4 (imm : BitVec 32) (s : State) : Result := pushImmediate (.push4 imm) (zext256 imm) s

/-- PUSH29 (R125). -/
def execPush29 (imm : BitVec 232) (s : State) : Result := pushImmediate (.push29 imm) (zext256 imm) s

end Sys2Proof.Machine
end

