-- ==== Sys2Proof/Machine/Stack.lean ====
section
/-! DEFINITION. DUP1 to DUP3 and SWAP1 to SWAP3 (spec/42_stack.md). -/

namespace Sys2Proof.Machine

/-- DUPd, the shared rule (R130). -/
def dupSlot (i : Instr) (d : Nat) (s : State) : Result :=
  checked i s (.next ((s.push (s.fromTop d)).advance 0))

/-- SWAPd, the shared rule (R134): both slots are read before either is written. -/
def swapSlots (i : Instr) (d : Nat) (s : State) : Result :=
  checked i s (.next (((s.setFromTop 1 (s.fromTop (1 + d))).setFromTop (1 + d) (s.fromTop 1)).advance 0))

/-- DUP1 (R131). -/
def execDup1 (s : State) : Result := dupSlot .dup1 1 s

/-- DUP2 (R132). -/
def execDup2 (s : State) : Result := dupSlot .dup2 2 s

/-- DUP3 (R133). -/
def execDup3 (s : State) : Result := dupSlot .dup3 3 s

/-- SWAP1 (R135). -/
def execSwap1 (s : State) : Result := swapSlots .swap1 1 s

/-- SWAP2 (R136). -/
def execSwap2 (s : State) : Result := swapSlots .swap2 2 s

/-- SWAP3 (R137). -/
def execSwap3 (s : State) : Result := swapSlots .swap3 3 s

end Sys2Proof.Machine
end

