-- ==== Sys2Proof/Machine/Dispatch.lean ====
section
/-! DEFINITION. The dispatch of an instruction to its rule (spec/40_sequencer.md R105, 30_encoding.md R75). -/

namespace Sys2Proof.Machine

def exec (i : Instr) (s : State) : Host.Outcome State Fault Refusal :=
  match i with
  | .stop => Sys2Proof.Machine.execStop s
  | .add => Sys2Proof.Machine.execAdd s
  | .mul => Sys2Proof.Machine.execMul s
  | .sub => Sys2Proof.Machine.execSub s
  | .div => Sys2Proof.Machine.execDiv s
  | .lt => Sys2Proof.Machine.execLt s
  | .eq => Sys2Proof.Machine.execEq s
  | .iszero => Sys2Proof.Machine.execIszero s
  | .not => Sys2Proof.Machine.execNot s
  | .calldataload => Sys2Proof.Machine.execCalldataload s
  | .calldatasize => Sys2Proof.Machine.execCalldatasize s
  | .mload => Sys2Proof.Machine.execMload s
  | .mstore => Sys2Proof.Machine.execMstore s
  | .jump => Sys2Proof.Machine.execJump s
  | .jumpi => Sys2Proof.Machine.execJumpi s
  | .jumpdest => Sys2Proof.Machine.execJumpdest s
  | .push1 imm => Sys2Proof.Machine.execPush1 imm s
  | .push2 imm => Sys2Proof.Machine.execPush2 imm s
  | .push4 imm => Sys2Proof.Machine.execPush4 imm s
  | .push29 imm => Sys2Proof.Machine.execPush29 imm s
  | .dup1 => Sys2Proof.Machine.execDup1 s
  | .dup2 => Sys2Proof.Machine.execDup2 s
  | .dup3 => Sys2Proof.Machine.execDup3 s
  | .swap1 => Sys2Proof.Machine.execSwap1 s
  | .swap2 => Sys2Proof.Machine.execSwap2 s
  | .swap3 => Sys2Proof.Machine.execSwap3 s
  | .ret => Sys2Proof.Machine.execReturn s
  | .revert => Sys2Proof.Machine.execRevert s
  | .invalid => Sys2Proof.Machine.execInvalid s

end Sys2Proof.Machine
end

