-- ==== Sys2Proof/Machine/Fetch.lean ====
section
/-! DEFINITION. What a step finds at the program counter (spec/40_sequencer.md R101, R102, R105), and the
placing of an instruction where the next step fetches. -/

namespace Sys2Proof.Machine

/-- The end-of-code test, then the decode of the bytes from `pc` on; nothing past CODE_LEN is read
(R101, R102, R105; 20_memory.md R51). -/
def State.fetch (s : State) : Decoded :=
  if s.codeLen ≤ s.pc then .empty else decode s.cfg (s.code.drop s.pc)

/-- `code` with `bytes` at address `a`: zero bytes fill a gap before `a`, what stands after stays. -/
def overwriteCode (code : List Byte) (a : Nat) (bytes : List Byte) : List Byte :=
  code.take a ++ List.replicate (a - code.length) 0 ++ bytes ++ code.drop (a + bytes.length)

/-- The state with `bytes` in the code at `pc`, ready to take a step (R100). -/
def State.placeAtPc (s : State) (bytes : List Byte) : State :=
  { s with code := overwriteCode s.code s.pc bytes, status := .running }

end Sys2Proof.Machine
end

