-- ==== Sys2Proof/Machine/Step.lean ====
section
/-! DEFINITION. One step (spec/40_sequencer.md R100 to R111). -/

namespace Sys2Proof.Machine

/-- One step. While STATUS is not Running it does nothing (R100, 10_state.md R43). A truncated PUSH runs
the PUSH's own rule, which raises before it reads the immediate (R107, R108, 41_push.md R121). -/
def step (s : State) : Host.Outcome State Fault Refusal :=
  match s.status with
  | .halted => .next s
  | .faulted => .next s
  | .running =>
    match s.fetch with
    | .empty => endOfCode s
    | .unknown op => unknownOpcode op (s.emit op)
    | .truncated i => exec i (s.emit i.opcode)
    | .instr i _ => exec i (s.emit i.opcode)

/-- The state with the instruction word `w` of `nbits` bits in the code at `pc`, so that the next step runs
it (assumption log 5). -/
def State.withFetchWord (s : State) (nbits w : Nat) : State := s.placeAtPc (tableBytes nbits w)

end Sys2Proof.Machine
end

