-- ==== Sys2Proof/Machine/Ports.lean ====
section
/-! DEFINITION. The block's interfaces to the Boundary Adapter (spec/10_state.md R43 to R45) with the numeric
codes of its outcome registers (R28 to R30), and what the adapter may do to the block (70_reset_and_hazards.md
R230, R234, R235). -/

namespace Sys2Proof.Machine

/-! ### The numeric codes -/

/-- STATUS as a number (R28). -/
def Status.bits : Status → BitVec 2
  | .running => 0
  | .halted => 1
  | .faulted => 2

/-- HALT_CODE as a number (R29). -/
def HaltCode.bits : HaltCode → BitVec 3
  | .none => 0
  | .endOfCode => 1
  | .stop => 2
  | .ret => 3
  | .revert => 4
  | .invalid => 5
  | .unknownOpcode => 6

/-- FAULT_CODE as a number (R30). -/
def FaultCode.bits : FaultCode → BitVec 3
  | .none => 0
  | .stackUnderflow => 1
  | .stackOverflow => 2
  | .memoryOutOfRange => 3
  | .invalidJumpTarget => 4
  | .immediateOutOfRange => 5
  | .unknownOpcode => 6

/-! ### Result outputs (R44) -/

/-- What the block presents continuously. -/
structure ResultOutputs where
  status    : BitVec 2
  haltCode  : BitVec 3
  faultCode : BitVec 3
  endPc     : Nat
  endOpcode : Byte
  pc        : Nat
  sp        : Nat
  deriving DecidableEq, Repr

/-- The result outputs in a state (R44). -/
def State.outputs (s : State) : ResultOutputs where
  status    := s.status.bits
  haltCode  := s.haltCode.bits
  faultCode := s.faultCode.bits
  endPc     := s.endPc
  endOpcode := s.endOpcode
  pc        := s.pc
  sp        := s.sp

/-! ### Observation ports (R45), which a running block does not serve -/

/-- A live stack slot. -/
def State.observeSlot (s : State) (i : Nat) : Option Word :=
  if s.status = .running then none else if i < s.sp then s.stack[i]? else none

/-- `Flat(a)` (20_memory.md R58). -/
def State.observeByte (s : State) (a : Nat) : Option Byte :=
  if s.status = .running then none else if a < s.cfg.memBytes then some (s.memRead (a / 16) (a % 16)) else none

/-! ### Control inputs (R43, 70_reset_and_hazards.md R230, R234, R235) -/

/-- What the Boundary Adapter does to the block. -/
inductive ControlInput where
  /-- Assert and release `reset` (R230). -/
  | reset
  /-- Request one step (R43). -/
  | step
  /-- Fix configuration, code and call data, then assert and release `reset` (R234 steps 1 to 4). -/
  | boot (cfg : Config) (code calldata : List Byte)
  /-- Present configuration, code and call data without a reset (R235). -/
  | present (cfg : Config) (code calldata : List Byte)
  deriving DecidableEq, Repr

/-- Inputs R6 and R34 admit. -/
def inputsInRange (cfg : Config) (code calldata : List Byte) : Bool :=
  cfg.wf && decide (code.length ≤ cfg.maxCodeLen) && decide (calldata.length ≤ cfg.maxCalldataLen)

/-- The block's answer to a control input. A change of the inputs of a run that has not ended is refused
(R235, 92_eei_decisions.md D27; assumption log 14). After a run has ended and before the next reset, inputs that are
presented take effect at once: the result and observation ports then show the ended run's stack and memory under
the new configuration, so that its MEM_CELLS bounds the memory port. The spec does not say what the ports show
then: DESIGN CHOICE (assumption log 14). -/
def drive (c : ControlInput) (s : State) : Result :=
  match c with
  | .reset => .next s.assertReset
  | .step => Sys2Proof.Machine.step s
  | .boot cfg code calldata =>
    if inputsInRange cfg code calldata then .next (State.boot cfg code calldata) else .refused .inputsOutOfRange
  | .present cfg code calldata =>
    if s.status = .running then
      (if cfg = s.cfg ∧ code = s.code ∧ calldata = s.calldata then .next s else .refused .inputsChanged)
    else if inputsInRange cfg code calldata then
      .next { s with cfg := cfg, code := code, calldata := calldata }
    else .refused .inputsOutOfRange

end Sys2Proof.Machine
end

