-- ==== Sys2Proof/Safety.lean ====
section
/-! DEFINITION. The terms claims are made in: the invariant of the block, the states of a run, what a step may
leave unchanged, and which states no program can tell apart. -/

namespace Sys2Proof.Machine

/-! ### The invariant -/

/-- The stack has STACK_DEPTH slots and the cursor is at most STACK_DEPTH (10_state.md R23, R24). -/
abbrev State.Shaped (s : State) : Prop :=
  s.stack.length = s.cfg.stackDepth ∧ s.sp ≤ s.cfg.stackDepth

/-- The inputs are of the lengths R34 admits, and MEM_INIT is a memory's contents (00_scope.md R6). -/
abbrev State.InputsOk (s : State) : Prop :=
  s.cfg.wf = true ∧ s.code.length ≤ s.cfg.maxCodeLen ∧ s.calldata.length ≤ s.cfg.maxCalldataLen

/-- Linear memory is in canonical form and lists only bytes that exist (20_memory.md R54). -/
abbrev State.MemOk (s : State) : Prop :=
  s.mem.wf = true ∧ s.mem.below s.cfg.memBytes = true

/-- The outcome registers say what 10_state.md R28 to R31 let them say under each STATUS, and the program
counter is where R21 puts it. -/
abbrev State.EndOk (s : State) : Prop :=
  match s.status with
  | .running =>
    s.haltCode = .none ∧ s.faultCode = .none ∧ s.endPc = 0 ∧ s.endOpcode = 0 ∧ s.pc ≤ s.codeLen
  | .halted =>
    s.haltCode ≠ .none ∧ s.faultCode = .none ∧ s.pc = s.codeLen ∧
    (s.haltCode = .endOfCode → s.endPc = s.codeLen ∧ s.endOpcode = 0) ∧
    (s.haltCode ≠ .endOfCode → s.codeByte s.endPc = some s.endOpcode) ∧
    (s.haltCode = .unknownOpcode → s.cfg.strictUnknown = false)
  | .faulted =>
    s.faultCode ≠ .none ∧ s.haltCode = .none ∧ s.pc = s.endPc ∧
    s.codeByte s.endPc = some s.endOpcode ∧
    (s.faultCode = .unknownOpcode → s.cfg.strictUnknown = true)

/-- The program counter and END_PC are numbers of PC_WIDTH bits (10_state.md R20, R21). -/
abbrev State.PcFits (s : State) : Prop := s.pc < 2 ^ s.cfg.pcWidth ∧ s.endPc < 2 ^ s.cfg.pcWidth

/-- The invariant every state of a run meets. -/
structure State.Inv (s : State) : Prop where
  shaped : s.Shaped
  inputs : s.InputsOk
  mem    : s.MemOk
  width  : s.PcFits
  ended  : s.EndOk

/-- The states of the runs: those a reset on admitted inputs leaves, and those a step leads to from there
(40_sequencer.md R112). -/
inductive Reachable : State → Prop where
  | boot (cfg : Config) (code calldata : List Byte) (h : inputsInRange cfg code calldata = true) :
      Reachable (State.boot cfg code calldata)
  | step {s t : State} (hs : Reachable s) (h : Sys2Proof.Machine.step s = .next t) : Reachable t

/-! ### What is left unchanged -/

/-- Code, call data and configuration (10_state.md R34). -/
abbrev SameInputs (s t : State) : Prop := t.code = s.code ∧ t.calldata = s.calldata ∧ t.cfg = s.cfg

/-- STATUS, HALT_CODE, FAULT_CODE, END_PC and END_OPCODE (10_state.md R28 to R31). -/
abbrev SameEnd (s t : State) : Prop :=
  t.status = s.status ∧ t.haltCode = s.haltCode ∧ t.faultCode = s.faultCode ∧
  t.endPc = s.endPc ∧ t.endOpcode = s.endOpcode

/-- Every byte of linear memory. -/
abbrev SameMemory (s t : State) : Prop := ∀ a, t.mem.read a = s.mem.read a

/-- Every stack slot, dead ones included, but those whose index is listed; and how many there are. -/
abbrev SameSlotsBut (touched : List Nat) (s t : State) : Prop :=
  t.stack.length = s.stack.length ∧ ∀ i, i ∉ touched → t.stack[i]? = s.stack[i]?

/-- All but the program counter, the cursor, memory and the listed slots. -/
abbrev FrameBut (touched : List Nat) (s t : State) : Prop :=
  SameSlotsBut touched s t ∧ SameEnd s t ∧ SameInputs s t ∧ t.trace = s.trace

/-- `pc <- p` as the rules write it, from `s` to `t`. The rules say it of numbers that PC_WIDTH bits hold, as every
number they write in a run is (10_state.md R21, R22); of a larger one this says nothing. -/
abbrev PcBecomes (p : Nat) (s t : State) : Prop := p < 2 ^ s.cfg.pcWidth → t.pc = p

/-- `t` is `s` after fault entry with code `f` at the opcode byte `op`, and nothing else (60_exceptions.md R201). -/
abbrev FaultsWith (f : FaultCode) (op : Byte) (s t : State) : Prop :=
  t.status = .faulted ∧ t.faultCode = f ∧ t.endPc = s.pc ∧ t.endOpcode = op ∧ t.pc = s.pc ∧ t.sp = s.sp ∧
  t.stack = s.stack ∧ t.mem = s.mem ∧ t.haltCode = s.haltCode ∧ SameInputs s t ∧ t.trace = s.trace

/-- `t` is `s` after halt entry with code `h` at the opcode byte `op`, and nothing else (60_exceptions.md R211). -/
abbrev HaltsWith (h : HaltCode) (op : Byte) (s t : State) : Prop :=
  t.status = .halted ∧ t.haltCode = h ∧ t.endPc = s.pc ∧ t.endOpcode = op ∧
  PcBecomes s.code.length s t ∧ t.sp = s.sp ∧
  t.stack = s.stack ∧ t.mem = s.mem ∧ t.faultCode = s.faultCode ∧ SameInputs s t ∧ t.trace = s.trace

/-! ### What no program can tell apart -/

/-- The states agree but for dead slots (10_state.md R25). -/
structure SameLive (s t : State) : Prop where
  pc : t.pc = s.pc
  sp : t.sp = s.sp
  length : t.stack.length = s.stack.length
  live : ∀ i, i < s.sp → t.stack[i]? = s.stack[i]?
  mem : t.mem = s.mem
  ended : SameEnd s t
  inputs : SameInputs s t
  trace : t.trace = s.trace

/-- The state with the trace port switched off and silent (10_state.md R46). -/
def State.untraced (s : State) : State :=
  { s with cfg := { s.cfg with traceEnable := false }, trace := [] }

/-- The state with the switches of 00_scope.md R6 that only decoding and its aftermath read (30_encoding.md R76,
47_halt.md R195) set otherwise. -/
def State.withSwitches (s : State) (hasNot hasJump : Bool) (mode : MloadMode) (strict : Bool) : State :=
  { s with cfg := { s.cfg with hasNot := hasNot, hasJump := hasJump, mloadMode := mode, strictUnknown := strict } }

/-! ### Safe steps -/

/-- What software must keep to when the instruction `i` runs under JUMP_CHECK = Bounds
(70_reset_and_hazards.md R243): enough slots, a free slot for a growing instruction, memory-ids below
`(MEM_CELLS - 1) * 16`, the whole immediate inside the code, jumps to addresses below CODE_LEN (and to 0x5B
bytes under JUMPDEST_CHECK). -/
structure InBounds (i : Instr) (s : State) : Prop where
  need : i.need ≤ s.sp
  room : i.grow = true → s.sp < s.cfg.stackDepth
  immediate : s.pc + 1 + i.immLen ≤ s.codeLen
  memoryId : i = .mstore ∨ i = .mload → (s.slot (s.sp - 1)).toNat < (s.cfg.memCells - 1) * 16
  target : i = .jump ∨ (i = .jumpi ∧ s.slot (s.sp - 2) ≠ 0) →
    (s.slot (s.sp - 1)).toNat < s.codeLen ∧
    (s.cfg.jumpdestCheck = true → s.codeByte (s.slot (s.sp - 1)).toNat = some 0x5B)

/-! ### The column "dsp" -/

/-- How an instruction that completes moves the cursor (10_state.md R23, the column "dsp" of 30_encoding.md R75). -/
def cursorChange : Instr → Int
  | .push1 _ | .push2 _ | .push4 _ | .push29 _ | .dup1 | .dup2 | .dup3 | .calldatasize => 1
  | .add | .mul | .sub | .div | .lt | .eq | .jump => -1
  | .mstore | .jumpi => -2
  | .iszero | .not | .calldataload | .mload | .jumpdest | .swap1 | .swap2 | .swap3 => 0
  | .stop | .ret | .revert | .invalid => 0

end Sys2Proof.Machine
end

