-- ==== Sys2Proof/Certificates/Slice0/Obligations.lean ====
section
/-! DEFINITION. The statements about the scout bytecode sequencer, each from the numbered rules of spec/. -/

open Sys2Proof Sys2Proof.Machine

/-! ### Shapes that several statements share -/

/-- What 43_arithmetic.md R140 says of a binary instruction `i` with opcode `op` that computes `f` on the
top `a` and the second slot `b`: its encoding, its one exception, its result, and that nothing else changes. -/
abbrev Sys2Proof.Machine.BinaryRule (i : Instr) (op : Byte) (f : Nat → Nat → Nat) : Prop :=
  encode i = [op] ∧
  ∀ s : State,
    (s.sp < 2 → ∃ t, exec i s = .next t ∧ FaultsWith .stackUnderflow op s t) ∧
    (s.Shaped → 2 ≤ s.sp →
      ∃ t, exec i s = .next t ∧
        (t.slot (s.sp - 2)).toNat = f (s.slot (s.sp - 1)).toNat (s.slot (s.sp - 2)).toNat ∧
        t.sp = s.sp - 1 ∧ PcBecomes (s.pc + 1) s t ∧ SameMemory s t ∧ FrameBut [s.sp - 2] s t)

/-- What 43_arithmetic.md R147 says, in the state `s`, of a unary instruction `i` with opcode `op` that computes `g`. -/
abbrev Sys2Proof.Machine.UnaryRule (i : Instr) (op : Byte) (g : Nat → Nat) (s : State) : Prop :=
  (s.sp = 0 → ∃ t, exec i s = .next t ∧ FaultsWith .stackUnderflow op s t) ∧
  (s.Shaped → 1 ≤ s.sp →
    ∃ t, exec i s = .next t ∧
      (t.slot (s.sp - 1)).toNat = g (s.slot (s.sp - 1)).toNat ∧
      t.sp = s.sp ∧ PcBecomes (s.pc + 1) s t ∧ SameMemory s t ∧ FrameBut [s.sp - 1] s t)

/-- What 41_push.md R120, R121 say of a PUSHN with opcode `op`, N = `n` and the immediate number `v`:
overflow first, then the range check, then the push. -/
abbrev Sys2Proof.Machine.PushRule (i : Instr) (op : Byte) (n v : Nat) : Prop :=
  ∀ s : State,
    (s.sp = s.cfg.stackDepth → ∃ t, exec i s = .next t ∧ FaultsWith .stackOverflow op s t) ∧
    (s.Shaped → s.sp < s.cfg.stackDepth → s.codeLen < s.pc + 1 + n →
      ∃ t, exec i s = .next t ∧ FaultsWith .immediateOutOfRange op s t) ∧
    (s.Shaped → s.sp < s.cfg.stackDepth → s.pc + 1 + n ≤ s.codeLen →
      ∃ t, exec i s = .next t ∧ (t.slot s.sp).toNat = v ∧ t.sp = s.sp + 1 ∧
        PcBecomes (s.pc + 1 + n) s t ∧ SameMemory s t ∧ FrameBut [s.sp] s t)

/-- What 42_stack.md R130 says of DUPd. -/
abbrev Sys2Proof.Machine.DupRule (i : Instr) (op : Byte) (d : Nat) : Prop :=
  encode i = [op] ∧
  ∀ s : State,
    (s.sp < d → ∃ t, exec i s = .next t ∧ FaultsWith .stackUnderflow op s t) ∧
    (d ≤ s.sp → s.sp = s.cfg.stackDepth → ∃ t, exec i s = .next t ∧ FaultsWith .stackOverflow op s t) ∧
    (s.Shaped → d ≤ s.sp → s.sp < s.cfg.stackDepth →
      ∃ t, exec i s = .next t ∧ t.stack[s.sp]? = s.stack[s.sp - d]? ∧ t.sp = s.sp + 1 ∧ PcBecomes (s.pc + 1) s t ∧
        SameMemory s t ∧ FrameBut [s.sp] s t)

/-- What 42_stack.md R134 says of SWAPd. -/
abbrev Sys2Proof.Machine.SwapRule (i : Instr) (op : Byte) (d : Nat) : Prop :=
  encode i = [op] ∧
  ∀ s : State,
    (s.sp < d + 1 → ∃ t, exec i s = .next t ∧ FaultsWith .stackUnderflow op s t) ∧
    (s.Shaped → d + 1 ≤ s.sp →
      ∃ t, exec i s = .next t ∧
        t.stack[s.sp - 1]? = s.stack[s.sp - 1 - d]? ∧ t.stack[s.sp - 1 - d]? = s.stack[s.sp - 1]? ∧
        t.sp = s.sp ∧ PcBecomes (s.pc + 1) s t ∧ SameMemory s t ∧ FrameBut [s.sp - 1, s.sp - 1 - d] s t)

/-- `resolve_target` of 45_control.md R174 rejects `dest`. -/
abbrev Sys2Proof.Machine.TargetRejected (s : State) (dest : Nat) : Prop :=
  (s.codeLen ≤ dest ∧ s.cfg.jumpCheck = .bounds) ∨
  (dest < s.codeLen ∧ s.cfg.jumpdestCheck = true ∧ s.code[dest]? ≠ some 0x5B)

/-- What the jump of 45_control.md R170, R172 does once it is to be taken: `i`, with opcode `op`, pops `n`. -/
abbrev Sys2Proof.Machine.TakenRule (i : Instr) (op : Byte) (n : Nat) (s : State) : Prop :=
  (TargetRejected s (s.slot (s.sp - 1)).toNat →
    ∃ t, exec i s = .next t ∧ FaultsWith .invalidJumpTarget op s t) ∧
  (¬ TargetRejected s (s.slot (s.sp - 1)).toNat →
    ∃ t, exec i s = .next t ∧
      PcBecomes (if (s.slot (s.sp - 1)).toNat < s.codeLen then (s.slot (s.sp - 1)).toNat else s.codeLen) s t ∧
      t.sp = s.sp - n ∧ SameMemory s t ∧ FrameBut [] s t)

/-- The opcode bytes of 30_encoding.md R75 whose condition is "always". -/
def Sys2Proof.Machine.alwaysBytes : List Byte :=
  [0x00, 0x01, 0x02, 0x03, 0x04, 0x10, 0x14, 0x15, 0x35, 0x36, 0x52, 0x57, 0x5B] ++
  [0x60, 0x61, 0x63, 0x7C, 0x80, 0x81, 0x82, 0x90, 0x91, 0x92, 0xF3, 0xFD, 0xFE]

/-- The byte is recognised under the configuration (30_encoding.md R75, R76). -/
abbrev Sys2Proof.Machine.Recognised (cfg : Config) (b : Byte) : Prop :=
  b ∈ alwaysBytes ∨ (b = 0x19 ∧ cfg.hasNot = true) ∨ (b = 0x56 ∧ cfg.hasJump = true) ∨
  (b = 0x51 ∧ cfg.mloadMode = .placeholder)

/-- The PUSH opcodes with their N (30_encoding.md R72, R75). -/
def Sys2Proof.Machine.pushWidths : List (Byte × Nat) := [(0x60, 1), (0x61, 2), (0x63, 4), (0x7C, 29)]

/-- The opcodes that need slots, with how many (30_encoding.md R75, 60_exceptions.md R202). -/
def Sys2Proof.Machine.slotNeeds : List (Byte × Nat) :=
  [(0x01, 2), (0x02, 2), (0x03, 2), (0x04, 2), (0x10, 2), (0x14, 2), (0x15, 1), (0x19, 1), (0x52, 2), (0x51, 1)] ++
  [(0x57, 2), (0x56, 1), (0x35, 1), (0x80, 1), (0x81, 2), (0x82, 3), (0x90, 2), (0x91, 3), (0x92, 4)]

/-- The opcodes that need a free slot (30_encoding.md R75, 60_exceptions.md R203). -/
def Sys2Proof.Machine.growingBytes : List Byte := [0x60, 0x61, 0x63, 0x7C, 0x80, 0x81, 0x82, 0x36]

/-- The fault of a step that fetches `op`, none where it does not fault: the first check that fails in the order
of 40_sequencer.md R108, with the causes of 60_exceptions.md R202 to R207. -/
def Sys2Proof.Machine.firstFault (s : State) (op : Byte) : Option FaultCode :=
  if ¬ Recognised s.cfg op then (if s.cfg.strictUnknown = true then some .unknownOpcode else none)
  else if ∃ p ∈ slotNeeds, p.1 = op ∧ s.sp < p.2 then some .stackUnderflow
  else if op ∈ growingBytes ∧ s.sp = s.cfg.stackDepth then some .stackOverflow
  else if ∃ p ∈ pushWidths, p.1 = op ∧ s.codeLen < s.pc + 1 + p.2 then some .immediateOutOfRange
  else if (op = 0x52 ∨ op = 0x51) ∧ s.cfg.memCells ≤ (s.slot (s.sp - 1)).toNat / 16 + 1 then some .memoryOutOfRange
  else if (op = 0x56 ∨ op = 0x57 ∧ s.slot (s.sp - 2) ≠ 0) ∧ TargetRejected s (s.slot (s.sp - 1)).toNat then
    some .invalidJumpTarget
  else none

/-! ### Encoding -/

/-- Decoding an encoded instruction gives it back, at every operand, whatever bytes follow
(30_encoding.md R70 to R76). -/
def Obligations.DecodeOfEncode : Prop :=
  ∀ (cfg : Config) (i : Instr) (rest : List Byte),
    i.wellFormed cfg = true → decode cfg (encode i ++ rest) = .instr i rest

/-- The decoder reads an instruction only from its own encoding, and only an instruction the configuration
has (30_encoding.md R70 to R76). -/
def Obligations.EncodeOfDecode : Prop :=
  ∀ (cfg : Config) (bytes : List Byte) (i : Instr) (rest : List Byte),
    decode cfg bytes = .instr i rest → bytes = encode i ++ rest ∧ i.wellFormed cfg = true

/-- R76, R78: the decoder answers Unknown(b) on exactly the bytes that are no row of R75 whose condition holds,
and 227 of the 256 are so under the default configuration. -/
def Obligations.UnknownBytesAreTheUnlisted : Prop :=
  (∀ (cfg : Config) (b : Byte) (rest : List Byte),
    decode cfg (b :: rest) = .unknown b ↔ ¬ Recognised cfg b) ∧
  ((List.range 256).filter fun b =>
    decide (decode Config.thisHardware [BitVec.ofNat 8 b] = .unknown (BitVec.ofNat 8 b))).length = 227

/-- A PUSH opcode with fewer than N bytes after it is the one thing the decoder reports as cut short. That the decoder
reports it is the model's choice (assumption log 10). -/
def Obligations.OnlyPushIsCutShort : Prop :=
  ∀ (cfg : Config) (b : Byte) (rest : List Byte),
    (∃ i, decode cfg (b :: rest) = .truncated i) ↔ ∃ n, (b, n) ∈ pushWidths ∧ rest.length < n

/-- Words of every family written out from the spec's encodings decode to their instructions
(41_push.md R122 to R125, 42_stack.md R132, R136, 43_arithmetic.md R141, 44_memory_ops.md R160,
45_control.md R170, 46_calldata.md R181, 47_halt.md R192). -/
def Obligations.SampleWordsDecode : Prop :=
  decode Config.thisHardware [0x60, 0x05, 0x01] = .instr (.push1 0x05) [0x01] ∧
  decode Config.thisHardware [0x61, 0x01, 0x02] = .instr (.push2 0x0102) [] ∧
  decode Config.thisHardware [0x63, 0xDE, 0xAD, 0xBE, 0xEF] = .instr (.push4 0xDEADBEEF) [] ∧
  decode Config.thisHardware (0x7C :: List.replicate 28 0x00 ++ [0x2A]) = .instr (.push29 0x2A) [] ∧
  decode Config.thisHardware [0x81] = .instr .dup2 [] ∧ decode Config.thisHardware [0x91] = .instr .swap2 [] ∧
  decode Config.thisHardware [0x01] = .instr .add [] ∧ decode Config.thisHardware [0x52] = .instr .mstore [] ∧
  decode Config.thisHardware [0x57] = .instr .jumpi [] ∧
  decode Config.thisHardware [0x35] = .instr .calldataload [] ∧
  decode Config.thisHardware [0xF3] = .instr .ret []

/-! ### The step -/

/-- R100: while STATUS is not Running a step changes nothing. -/
def Obligations.EndedRunStaysEnded : Prop :=
  ∀ s : State, s.status ≠ .running → step s = .next s

/-- R101: at or past the end of the code the step halts with EndOfCode, END_OPCODE 0, and nothing else changes. -/
def Obligations.EndOfCodeHalts : Prop :=
  ∀ s : State, s.status = .running → s.codeLen ≤ s.pc →
    ∃ t, step s = .next t ∧ HaltsWith .endOfCode 0 s t

/-- When the bytes at the program counter decode to an instruction, the step emits the trace event if TRACE_ENABLE
and is then `exec` of that instruction (40_sequencer.md section 1). That the port's events stand in a field of the
state is the model's choice (assumption log 8). -/
def Obligations.StepRunsTheDecodedInstruction : Prop :=
  ∀ (s : State) (i : Instr) (rest : List Byte),
    s.status = .running → decode s.cfg (s.code.drop s.pc) = .instr i rest →
      step s = exec i (if s.cfg.traceEnable = true
        then { s with trace := ⟨s.pc, i.opcode⟩ :: s.trace } else s)

/-- R195: an unrecognised byte halts with UnknownOpcode, or faults with it under STRICT_UNKNOWN; no stack check,
no immediate, nothing else changes but the trace port's event. -/
def Obligations.UnknownOpcodeEndsTheRun : Prop :=
  ∀ (s : State) (b : Byte),
    s.status = .running → s.code[s.pc]? = some b → ¬ Recognised s.cfg b →
      ∃ t, step s = .next t ∧
        (s.cfg.strictUnknown = false → HaltsWith .unknownOpcode b s { t with trace := s.trace }) ∧
        (s.cfg.strictUnknown = true → FaultsWith .unknownOpcode b s { t with trace := s.trace })

/-- R120, R122 to R125: a PUSH opcode at the program counter. A full stack raises StackOverflow first; then an
immediate that would run past the end of the code raises ImmediateOutOfRange; otherwise the bytes of the immediate
in address order become the low N bytes of the pushed slot, the first of them the most significant, and the slot's
bytes above are 0 (R74). -/
def Obligations.PushPlacesImmediateBytes : Prop :=
  ∀ (s : State) (op : Byte) (n : Nat),
    s.status = .running → s.Shaped → (op, n) ∈ pushWidths → s.code[s.pc]? = some op →
      (s.sp = s.cfg.stackDepth →
        ∃ t, step s = .next t ∧ FaultsWith .stackOverflow op s { t with trace := s.trace }) ∧
      (s.sp < s.cfg.stackDepth → s.codeLen < s.pc + 1 + n →
        ∃ t, step s = .next t ∧ FaultsWith .immediateOutOfRange op s { t with trace := s.trace }) ∧
      (s.sp < s.cfg.stackDepth → s.pc + 1 + n ≤ s.codeLen →
        ∃ t, step s = .next t ∧ t.sp = s.sp + 1 ∧ PcBecomes (s.pc + 1 + n) s t ∧
          (∀ k, k < n → s.code[s.pc + 1 + k]? = some (wordByte (t.slot s.sp) (32 - n + k))) ∧
          (∀ k, k < 32 - n → wordByte (t.slot s.sp) k = 0) ∧
          SameMemory s t ∧ FrameBut [s.sp] s { t with trace := s.trace })

/-- R46: when TRACE_ENABLE a step that fetches emits exactly one event, the opcode's address and byte, and a
step that fetches nothing, or any step when not TRACE_ENABLE, emits none. That the events stand in a field of the
state, the latest first, is the model's choice (assumption log 8). -/
def Obligations.TracePortEvents : Prop :=
  ∀ s t : State, step s = .next t →
    t.trace = (if s.status = .running ∧ s.cfg.traceEnable = true
      then ((s.code[s.pc]?).map fun op => TraceEvent.mk s.pc op).toList ++ s.trace else s.trace)

/-! ### The instructions -/

/-- R140 to R143: ADD, MUL, SUB modulo 2^256 of the top two slots. -/
def Obligations.AddMulSubModulo : Prop :=
  BinaryRule .add 0x01 (fun a b => (a + b) % 2 ^ 256) ∧
  BinaryRule .mul 0x02 (fun a b => (a * b) % 2 ^ 256) ∧
  BinaryRule .sub 0x03 (fun a b => (((a : Int) - (b : Int)) % 2 ^ 256).toNat)

/-- R140, R144: DIV is the floor of top over second, and 0 when the second is 0; it never faults on an operand. -/
def Obligations.DivFloorZeroByZero : Prop :=
  BinaryRule .div 0x04 (fun a b => if b ≠ 0 then a / b else 0)

/-- R140, R145, R146: LT and EQ leave 1 or 0, compared as unsigned numbers. -/
def Obligations.LtEqLeaveZeroOrOne : Prop :=
  BinaryRule .lt 0x10 (fun a b => if a < b then 1 else 0) ∧
  BinaryRule .eq 0x14 (fun a b => if a = b then 1 else 0)

/-- R147, R148: ISZERO replaces the top by 1 or 0. -/
def Obligations.IszeroInPlace : Prop :=
  encode .iszero = [0x15] ∧ ∀ s : State, UnaryRule .iszero 0x15 (fun a => if a = 0 then 1 else 0) s

/-- R147, R149: when HAS_NOT, NOT replaces the top by its complement; when HAS_NOT is false, byte 0x19 is unknown. -/
def Obligations.NotComplementsInPlace : Prop :=
  encode .not = [0x19] ∧
  (∀ s : State, s.cfg.hasNot = true → UnaryRule .not 0x19 (fun a => (2 ^ 256 - 1) - a) s) ∧
  ∀ (cfg : Config) (rest : List Byte), cfg.hasNot = false → decode cfg (0x19 :: rest) = .unknown 0x19

/-- The PUSH instructions, at every immediate (41_push.md). That the instruction carries its immediate is the model's
choice (assumption log 11); PushPlacesImmediateBytes states the rules of the bytes in the code. -/
def Obligations.PushPushesImmediate : Prop :=
  (∀ imm : BitVec 8, PushRule (.push1 imm) 0x60 1 imm.toNat) ∧
  (∀ imm : BitVec 16, PushRule (.push2 imm) 0x61 2 imm.toNat) ∧
  (∀ imm : BitVec 32, PushRule (.push4 imm) 0x63 4 imm.toNat) ∧
  (∀ imm : BitVec 232, PushRule (.push29 imm) 0x7C 29 imm.toNat)

/-- R130 to R133: DUP1, DUP2, DUP3. -/
def Obligations.DupCopiesSlot : Prop :=
  DupRule .dup1 0x80 1 ∧ DupRule .dup2 0x81 2 ∧ DupRule .dup3 0x82 3

/-- R134 to R137: SWAP1, SWAP2, SWAP3. -/
def Obligations.SwapExchangesSlots : Prop :=
  SwapRule .swap1 0x90 1 ∧ SwapRule .swap2 0x91 2 ∧ SwapRule .swap3 0x92 3

/-- R160: MSTORE, its exceptions, the 32 bytes it stores, and that every other byte of memory, every slot and
every register but sp and pc stay. -/
def Obligations.MstoreWritesTwoCells : Prop :=
  encode .mstore = [0x52] ∧
  ∀ s : State,
    (s.sp < 2 → ∃ t, exec .mstore s = .next t ∧ FaultsWith .stackUnderflow 0x52 s t) ∧
    (s.Shaped → 2 ≤ s.sp → s.cfg.memCells ≤ (s.slot (s.sp - 1)).toNat / 16 + 1 →
      ∃ t, exec .mstore s = .next t ∧ FaultsWith .memoryOutOfRange 0x52 s t) ∧
    (s.Shaped → s.mem.wf = true → 2 ≤ s.sp → (s.slot (s.sp - 1)).toNat / 16 + 1 < s.cfg.memCells →
      ∃ t, exec .mstore s = .next t ∧
        (∀ k, k < 16 →
          t.mem.read (16 * ((s.slot (s.sp - 1)).toNat / 16) + k) = wordByte (s.slot (s.sp - 2)) k ∧
          t.mem.read (16 * ((s.slot (s.sp - 1)).toNat / 16 + 1) + k) = wordByte (s.slot (s.sp - 2)) (16 + k)) ∧
        (∀ a, a < 16 * ((s.slot (s.sp - 1)).toNat / 16) ∨ 16 * ((s.slot (s.sp - 1)).toNat / 16) + 32 ≤ a →
          t.mem.read a = s.mem.read a) ∧
        t.sp = s.sp - 2 ∧ PcBecomes (s.pc + 1) s t ∧ FrameBut [] s t)

/-- R163: MLOAD when MLOAD_MODE = Placeholder, its exceptions, and that it replaces the top by byte MLOAD_BYTE_INDEX of cell id / 16 + 1. -/
def Obligations.MloadReadsOneByte : Prop :=
  encode .mload = [0x51] ∧
  ∀ s : State, s.cfg.mloadMode = .placeholder →
    (s.sp = 0 → ∃ t, exec .mload s = .next t ∧ FaultsWith .stackUnderflow 0x51 s t) ∧
    (s.Shaped → 1 ≤ s.sp → s.cfg.memCells ≤ (s.slot (s.sp - 1)).toNat / 16 + 1 →
      ∃ t, exec .mload s = .next t ∧ FaultsWith .memoryOutOfRange 0x51 s t) ∧
    (s.Shaped → 1 ≤ s.sp → (s.slot (s.sp - 1)).toNat / 16 + 1 < s.cfg.memCells →
      ∃ t, exec .mload s = .next t ∧
        (t.slot (s.sp - 1)).toNat =
          (s.mem.read (16 * ((s.slot (s.sp - 1)).toNat / 16 + 1) + s.cfg.mloadByteIndex.val)).toNat ∧
        t.sp = s.sp ∧ PcBecomes (s.pc + 1) s t ∧ SameMemory s t ∧ FrameBut [s.sp - 1] s t)

/-- R170, R174: JUMPI pops two slots, checks the destination only when the condition is nonzero, and a
rejected jump pops nothing. -/
def Obligations.JumpiTakenIffNonzero : Prop :=
  encode .jumpi = [0x57] ∧
  ∀ s : State,
    (s.sp < 2 → ∃ t, exec .jumpi s = .next t ∧ FaultsWith .stackUnderflow 0x57 s t) ∧
    (s.Shaped → 2 ≤ s.sp → s.slot (s.sp - 2) = 0 →
      ∃ t, exec .jumpi s = .next t ∧ PcBecomes (s.pc + 1) s t ∧ t.sp = s.sp - 2 ∧ SameMemory s t ∧ FrameBut [] s t) ∧
    (s.Shaped → 2 ≤ s.sp → s.slot (s.sp - 2) ≠ 0 → TakenRule .jumpi 0x57 2 s)

/-- R172, R174: when HAS_JUMP, JUMP pops its destination and goes there, or raises InvalidJumpTarget and pops nothing. -/
def Obligations.JumpGoesToTarget : Prop :=
  encode .jump = [0x56] ∧
  ∀ s : State, s.cfg.hasJump = true →
    (s.sp = 0 → ∃ t, exec .jump s = .next t ∧ FaultsWith .stackUnderflow 0x56 s t) ∧
    (s.Shaped → 1 ≤ s.sp → TakenRule .jump 0x56 1 s)

/-- R176: JUMPDEST advances the program counter and changes nothing else, whatever the stack. -/
def Obligations.JumpdestOnlyAdvances : Prop :=
  encode .jumpdest = [0x5B] ∧
  ∀ s : State, ∃ t, exec .jumpdest s = .next t ∧ PcBecomes (s.pc + 1) s t ∧ t.sp = s.sp ∧ SameMemory s t ∧ FrameBut [] s t

/-- R180, R181: CALLDATALOAD replaces the top by the 32 call-data bytes at that offset, most significant first,
zero past the end, the offset never reduced. -/
def Obligations.CalldataloadZeroFills : Prop :=
  encode .calldataload = [0x35] ∧
  ∀ s : State,
    (s.sp = 0 → ∃ t, exec .calldataload s = .next t ∧ FaultsWith .stackUnderflow 0x35 s t) ∧
    (s.Shaped → 1 ≤ s.sp →
      ∃ t, exec .calldataload s = .next t ∧
        (∀ k, k < 32 → wordByte (t.slot (s.sp - 1)) k =
          if h : (s.slot (s.sp - 1)).toNat + k < s.calldata.length
          then s.calldata[(s.slot (s.sp - 1)).toNat + k] else 0) ∧
        t.sp = s.sp ∧ PcBecomes (s.pc + 1) s t ∧ SameMemory s t ∧ FrameBut [s.sp - 1] s t)

/-- R182, R183: CALLDATASIZE pushes CALLDATA_LEN. -/
def Obligations.CalldatasizePushesLength : Prop :=
  encode .calldatasize = [0x36] ∧
  ∀ s : State,
    (s.sp = s.cfg.stackDepth → ∃ t, exec .calldatasize s = .next t ∧ FaultsWith .stackOverflow 0x36 s t) ∧
    (s.Shaped → s.sp < s.cfg.stackDepth → s.calldata.length < 2 ^ 256 →
      ∃ t, exec .calldatasize s = .next t ∧ (t.slot s.sp).toNat = s.calldata.length ∧
        t.sp = s.sp + 1 ∧ PcBecomes (s.pc + 1) s t ∧ SameMemory s t ∧ FrameBut [s.sp] s t)

/-- R190 to R194: STOP, RETURN, REVERT and INVALID halt with their codes and pop, copy and undo nothing. -/
def Obligations.HaltingInstructionsHalt : Prop :=
  ∀ row ∈ [(Instr.stop, 0x00, HaltCode.stop), (.ret, 0xF3, .ret), (.revert, 0xFD, .revert), (.invalid, 0xFE, .invalid)],
    encode row.1 = [row.2.1] ∧ ∀ s : State, ∃ t, exec row.1 s = .next t ∧ HaltsWith row.2.2 row.2.1 s t

/-! ### Rules of the whole machine -/

/-- A reset in any state starts a new run on the same inputs, with every register as R35 says; the stack is
STACK_DEPTH slots of no stated contents. -/
def Obligations.ResetStartsAnew : Prop :=
  ∀ s : State, ∃ t, drive .reset s = .next t ∧
    t.pc = 0 ∧ t.sp = 0 ∧ t.status = .running ∧ t.haltCode = .none ∧ t.faultCode = .none ∧ t.endPc = 0 ∧
    t.endOpcode = 0 ∧ t.mem = s.cfg.memInit ∧ t.stack.length = s.cfg.stackDepth ∧ SameInputs s t

/-- The invariant holds where a run starts, on every admitted input, and in the host's reset state, whose empty code,
call data and MEM_INIT are the model's choice (assumption log 1, 5), as are the bounds of an admitted configuration on
MAX_CODE_LEN and MAX_CALLDATA_LEN (assumption log 4). -/
def Obligations.InvariantAtReset : Prop :=
  (∀ (cfg : Config) (code calldata : List Byte),
    inputsInRange cfg code calldata = true → (State.boot cfg code calldata).Inv) ∧ State.reset.Inv

/-- Every step keeps the invariant: the stack's shape, memory's canonical form and bounds, the program counter's width
and bound, and what the outcome registers may hold. That MAX_CODE_LEN is below 2^PC_WIDTH, which the invariant asks, is
the model's choice (assumption log 4). -/
def Obligations.StepKeepsInvariant : Prop :=
  ∀ s t : State, s.Inv → step s = .next t → t.Inv

/-- No state of a run makes the model stop: every step from a state that meets the invariant answers a next
state, and every state of every run meets it. -/
def Obligations.RunsNeverStopTheModel : Prop :=
  (∀ s : State, s.Inv → ∃ t, step s = .next t) ∧ (∀ s : State, Reachable s → s.Inv)

/-- R34, R66: no step writes the code, the call data or the configuration. -/
def Obligations.InputsAreNeverWritten : Prop :=
  ∀ s t : State, step s = .next t → SameInputs s t

/-- Of the instructions only MSTORE writes linear memory (10_state.md section 4). That this holds of an instruction the
configuration lacks too is the model's choice (assumption log 15). -/
def Obligations.OnlyMstoreWritesMemory : Prop :=
  ∀ (i : Instr) (s t : State), i ≠ .mstore → exec i s = .next t → SameMemory s t

/-- An instruction other than MLOAD and MSTORE does the same whatever linear memory holds, and leaves it so
(10_state.md section 4). That this holds of an instruction the configuration lacks too is the model's choice
(assumption log 15). -/
def Obligations.OthersIgnoreMemory : Prop :=
  ∀ (i : Instr) (s t : State) (m : Memory), i ≠ .mload → i ≠ .mstore →
    exec i s = .next t → exec i (s.setMem m) = .next (t.setMem m)

/-- The cursor moves by the amount the instruction's rule gives when the run goes on, and not at all when the
instruction ends it (10_state.md section 3). That it does so for an instruction the configuration lacks too is the
model's choice (assumption log 15). -/
def Obligations.CursorMovesByRule : Prop :=
  ∀ (i : Instr) (s t : State), s.status = .running → exec i s = .next t →
    (t.status = .running → (t.sp : Int) = (s.sp : Int) + cursorChange i) ∧ (t.status ≠ .running → t.sp = s.sp)

/-- R104: where the program counter is after a step. -/
def Obligations.NextPcIsOneOfThree : Prop :=
  ∀ s t : State, s.status = .running → s.codeLen < 2 ^ s.cfg.pcWidth → step s = .next t →
    (t.status = .halted → t.pc = s.codeLen) ∧
    (t.status = .faulted → t.pc = s.pc) ∧
    (t.status = .running → ∃ op, s.code[s.pc]? = some op ∧
      (∀ n, (op, n) ∈ pushWidths → t.pc = s.pc + 1 + n) ∧
      ((op = 0x56 ∨ op = 0x57 ∧ s.slot (s.sp - 2) ≠ 0) →
        t.pc = if (s.slot (s.sp - 1)).toNat < s.codeLen then (s.slot (s.sp - 1)).toNat else s.codeLen) ∧
      ((∀ n, (op, n) ∉ pushWidths) → op ≠ 0x56 → (op = 0x57 → s.slot (s.sp - 2) = 0) → t.pc = s.pc + 1))

/-- R106, R202: an instruction the configuration has that finds fewer slots than it needs raises StackUnderflow and changes nothing. -/
def Obligations.UnderflowIsPrecise : Prop :=
  ∀ (i : Instr) (op : Byte) (n : Nat) (s : State), i.wellFormed s.cfg = true → encode i = [op] →
    (op, n) ∈ slotNeeds → s.sp < n →
    ∃ t, exec i s = .next t ∧ FaultsWith .stackUnderflow op s t

/-- R200, R201: a step that faults changes no slot, not the cursor, not memory; it records the opcode's address
and byte and leaves the program counter there. -/
def Obligations.FaultsArePrecise : Prop :=
  ∀ s t : State, s.status = .running → step s = .next t → t.status = .faulted →
    ∃ (f : FaultCode) (op : Byte), f ≠ .none ∧ s.code[s.pc]? = some op ∧
      FaultsWith f op s { t with trace := s.trace }

/-- R108, R202 to R207: the end-of-code test comes first and is no fault; a step that fetches a byte faults, and
with which code, as the first check that fails says. -/
def Obligations.FaultsFollowCheckOrder : Prop :=
  ∀ s : State, s.status = .running → s.Shaped →
    (s.codeLen ≤ s.pc → ∃ t, step s = .next t ∧ t.status = .halted ∧ t.haltCode = .endOfCode) ∧
    (∀ op, s.code[s.pc]? = some op →
      ∃ t, step s = .next t ∧ (if t.status = .faulted then some t.faultCode else none) = firstFault s op)

/-- R209, R211: a step that halts changes no slot, not the cursor, not memory; it records why and where. -/
def Obligations.HaltsChangeNoData : Prop :=
  ∀ s t : State, s.status = .running → step s = .next t → t.status = .halted →
    ∃ (h : HaltCode) (op : Byte), h ≠ .none ∧
      (h = .endOfCode → op = 0 ∧ s.codeLen ≤ s.pc) ∧ (h ≠ .endOfCode → s.code[s.pc]? = some op) ∧
      HaltsWith h op s { t with trace := s.trace }

/-- R243: under JUMP_CHECK = Bounds an instruction faults exactly when the program breaks one of the bounds
it must keep to. -/
def Obligations.FaultExactlyOutOfBounds : Prop :=
  ∀ (s : State) (i : Instr) (rest : List Byte), s.Inv → s.status = .running → s.cfg.jumpCheck = .bounds →
    decode s.cfg (s.code.drop s.pc) = .instr i rest →
      ∃ t, step s = .next t ∧ (t.status = .faulted ↔ ¬ InBounds i s)

/-- Dead slots cannot be observed: two states that differ only in them step to two such states, and the result
outputs and the observation ports show the same (10_state.md section 3). -/
def Obligations.DeadSlotsAreUnobservable : Prop :=
  ∀ s s' t : State, s.Shaped → SameLive s s' → step s = .next t →
    ∃ t', step s' = .next t' ∧ SameLive t t' ∧ t'.outputs = t.outputs ∧
      (∀ i, t'.observeSlot i = t.observeSlot i) ∧ (∀ a, t'.observeByte a = t.observeByte a)

/-- The trace port changes no state and no rule reads it (10_state.md section 9): with the port switched off and silent
the same step gives the same state but for the port, whose field is the model's choice (assumption log 8). -/
def Obligations.TraceHasNoEffect : Prop :=
  ∀ s t : State, step s = .next t → step s.untraced = .next t.untraced

/-- No instruction reads HAS_NOT, HAS_JUMP, MLOAD_MODE or STRICT_UNKNOWN: it does the same whichever way they are set.
That exec gives an instruction the configuration lacks its ordinary effect is the model's choice (assumption log 15). -/
def Obligations.SwitchesOnlyChangeDecoding : Prop :=
  ∀ (i : Instr) (s t : State) (hasNot hasJump : Bool) (mode : MloadMode) (strict : Bool),
    exec i s = .next t →
      exec i (s.withSwitches hasNot hasJump mode strict) = .next (t.withSwitches hasNot hasJump mode strict)

/-- From every state, what a step writes to the program counter is a number of PC_WIDTH bits. That the register keeps
that many bits of a larger one, which the spec never writes, is the model's choice (assumption log 4). -/
def Obligations.ProgramCounterKeepsItsWidth : Prop :=
  ∀ s t : State, step s = .next t → t.pc = s.pc ∨ t.pc < 2 ^ s.cfg.pcWidth

/-- DUP1 then SWAP1 on a stack of one slot leaves two slots that hold its value (42_stack.md). -/
def Obligations.DupThenSwapKeepsValue : Prop :=
  ∀ s : State, s.Shaped → s.sp = 1 → 2 ≤ s.cfg.stackDepth →
    ∃ t u, exec .dup1 s = .next t ∧ exec .swap1 t = .next u ∧
      u.sp = 2 ∧ u.stack[0]? = s.stack[0]? ∧ u.stack[1]? = s.stack[0]?

/-- A word MSTORE stored at an id that is a multiple of 16 stands in the flat bytes id to id + 31, most
significant first, and MLOAD of the same id then reads its byte 16 + MLOAD_BYTE_INDEX
(20_memory.md sections 2 and 3, 44_memory_ops.md). That MLOAD does so under MLOAD_MODE = Unknown too, where no byte
decodes as MLOAD, is the model's choice (assumption log 15). -/
def Obligations.StoredWordReadsBack : Prop :=
  ∀ (s : State) (id v : Word) (n : Nat), s.Shaped → s.mem.wf = true → s.sp = n + 2 → s.slot (n + 1) = id → s.slot n = v →
    id.toNat / 16 + 1 < s.cfg.memCells →
    ∃ t, exec .mstore s = .next t ∧
      (id.toNat % 16 = 0 → ∀ k, k < 32 → t.mem.read (id.toNat + k) = wordByte v k) ∧
      ∃ u, exec .mload ((t.setSlot n id).setSp (n + 1)) = .next u ∧
        (u.slot n).toNat = (wordByte v (16 + s.cfg.mloadByteIndex.val)).toNat

/-- R28 to R31, R44: what the result outputs show. STATUS, HALT_CODE and FAULT_CODE have the numeric values of the
rules, in which 3 of the first and 7 of the others never appear, and each register is 0 where its rule says so. -/
def Obligations.ResultOutputsSayHowTheRunEnded : Prop :=
  ∀ s : State, s.Inv →
    s.outputs.status.toNat = [Status.running, .halted, .faulted].idxOf s.status ∧
    s.outputs.haltCode.toNat =
      [HaltCode.none, .endOfCode, .stop, .ret, .revert, .invalid, .unknownOpcode].idxOf s.haltCode ∧
    s.outputs.faultCode.toNat = [FaultCode.none, .stackUnderflow, .stackOverflow, .memoryOutOfRange,
      .invalidJumpTarget, .immediateOutOfRange, .unknownOpcode].idxOf s.faultCode ∧
    s.outputs.status.toNat < 3 ∧ s.outputs.haltCode.toNat < 7 ∧ s.outputs.faultCode.toNat < 7 ∧
    (s.outputs.status = 1 ↔ s.outputs.haltCode ≠ 0) ∧ (s.outputs.status = 2 ↔ s.outputs.faultCode ≠ 0) ∧
    (s.outputs.status = 0 → s.outputs.endPc = 0 ∧ s.outputs.endOpcode = 0) ∧
    (s.outputs.haltCode = 1 → s.outputs.endPc = s.codeLen ∧ s.outputs.endOpcode = 0) ∧
    (s.outputs.status ≠ 0 → s.outputs.haltCode ≠ 1 → s.codeByte s.outputs.endPc = some s.outputs.endOpcode) ∧
    (s.outputs.status = 1 → s.outputs.pc = s.codeLen) ∧ (s.outputs.status = 2 → s.outputs.pc = s.outputs.endPc)

/-- The observation ports serve live slots and memory bytes once the run has ended (10_state.md section 9), and
nothing before, which is the model's choice (assumption log 14). -/
def Obligations.ObservationAfterTheRun : Prop :=
  ∀ s : State, s.Shaped →
    (s.status ≠ .running → (∀ i, i < s.sp → s.observeSlot i = some (s.slot i)) ∧
      (∀ a, a < 16 * s.cfg.memCells → s.observeByte a = some (s.mem.read a))) ∧
    (∀ i, s.sp ≤ i → s.observeSlot i = none) ∧ (∀ a, 16 * s.cfg.memCells ≤ a → s.observeByte a = none) ∧
    (s.status = .running → (∀ i, s.observeSlot i = none) ∧ ∀ a, s.observeByte a = none)

/-- A change of the inputs of a run that has not ended is refused (70_reset_and_hazards.md section 2; that the
refusal happens at the change is the model's choice, assumption log 14). -/
def Obligations.ChangedInputsRefused : Prop :=
  ∀ (s : State) (cfg : Config) (code calldata : List Byte), s.status = .running →
    cfg ≠ s.cfg ∨ code ≠ s.code ∨ calldata ≠ s.calldata →
      drive (.present cfg code calldata) s = .refused .inputsChanged
end

