-- ==== Sys2Proof/Laws/Decode.lean ====
section
/-! SUPPORT. Laws of the byte order, of the opcode table and of the decoder's parts (spec/30_encoding.md). -/

namespace Sys2Proof

/-! ### Byte order (R74) -/

@[simp] theorem beBytes_length (n v : Nat) : (beBytes n v).length = n := by
  induction n with
  | zero => rfl
  | succ n ih => simp [beBytes, ih]

theorem beNat_foldl (bs : List Byte) (acc : Nat) :
    bs.foldl (fun acc b => acc * 256 + b.toNat) acc = acc * 256 ^ bs.length + beNat bs := by
  induction bs generalizing acc with
  | nil => simp [beNat]
  | cons b bs ih =>
    have e : beNat (b :: bs) = (0 * 256 + b.toNat) * 256 ^ bs.length + beNat bs := by
      rw [← ih]
      rfl
    rw [List.foldl_cons, ih, e, List.length_cons, Nat.pow_succ, Nat.add_mul, Nat.zero_mul, Nat.zero_add,
      Nat.mul_assoc, Nat.mul_comm 256, Nat.add_assoc]

/-- The first byte is the most significant. -/
theorem beNat_cons (b : Byte) (bs : List Byte) : beNat (b :: bs) = b.toNat * 256 ^ bs.length + beNat bs := by
  rw [beNat, List.foldl_cons, beNat_foldl, Nat.zero_mul, Nat.zero_add]

theorem beNat_lt (bs : List Byte) : beNat bs < 256 ^ bs.length := by
  induction bs with
  | nil => simp [beNat]
  | cons b bs ih =>
    rw [beNat_cons, List.length_cons, Nat.pow_succ]
    have hb := b.isLt
    have : b.toNat * 256 ^ bs.length ≤ 255 * 256 ^ bs.length := Nat.mul_le_mul_right _ (by omega)
    omega

/-- The bytes of a number spell it. -/
theorem beNat_beBytes (n v : Nat) : beNat (beBytes n v) = v % 256 ^ n := by
  induction n with
  | zero => simp [beBytes, beNat, Nat.mod_one]
  | succ n ih =>
    rw [beBytes, beNat_cons, ih, beBytes_length, BitVec.toNat_ofNat, Nat.pow_succ 256 n, Nat.mod_mul, Nat.mul_comm,
      Nat.add_comm]

/-- A byte string is the bytes of the number it spells. -/
theorem beBytes_beNat (bs : List Byte) (n : Nat) (h : bs.length = n) : beBytes n (beNat bs) = bs := by
  subst h
  have key : ∀ (bs : List Byte) (k : Nat), beBytes bs.length (k * 256 ^ bs.length + beNat bs) = bs := by
    intro bs
    induction bs with
    | nil => intro k; rfl
    | cons b bs ih =>
      intro k
      rw [List.length_cons, beBytes, beNat_cons]
      have hlt := beNat_lt bs
      have hpos : 0 < 256 ^ bs.length := Nat.pow_pos (by omega)
      have e : k * 256 ^ (bs.length + 1) + (b.toNat * 256 ^ bs.length + beNat bs) =
          (k * 256 + b.toNat) * 256 ^ bs.length + beNat bs := by
        rw [Nat.pow_succ, Nat.add_mul, Nat.mul_assoc, Nat.mul_comm 256, Nat.add_assoc]
      rw [e, ih]
      congr 1
      rw [Nat.add_comm, Nat.add_mul_div_right _ _ hpos, Nat.div_eq_of_lt hlt, Nat.zero_add]
      apply BitVec.eq_of_toNat_eq
      rw [BitVec.toNat_ofNat]
      have hb := b.isLt
      omega
  simpa using key bs 0

/-- Byte `k` of the bytes of a number. -/
theorem beBytes_getElem? (n v k : Nat) (hk : k < n) :
    (beBytes n v)[k]? = some (BitVec.ofNat 8 (v / 256 ^ (n - 1 - k))) := by
  induction n generalizing k with
  | zero => omega
  | succ n ih =>
    rw [beBytes]
    cases k with
    | zero => simp
    | succ k =>
      rw [List.getElem?_cons_succ, ih k (by omega)]
      congr 4
      omega

/-! ### The opcode table (R75) -/

@[simp] theorem Instr.withImm_row (i : Instr) (v : Nat) : (i.withImm v).row = i.row := by cases i <;> rfl
@[simp] theorem Instr.withImm_opcode (i : Instr) (v : Nat) : (i.withImm v).opcode = i.opcode := by cases i <;> rfl
@[simp] theorem Instr.withImm_immLen (i : Instr) (v : Nat) : (i.withImm v).immLen = i.immLen := by cases i <;> rfl
@[simp] theorem Instr.withImm_wellFormed (i : Instr) (cfg : Config) (v : Nat) :
    (i.withImm v).wellFormed cfg = i.wellFormed cfg := by cases i <;> rfl
@[simp] theorem Instr.withImm_withImm (i : Instr) (v w : Nat) : (i.withImm v).withImm w = i.withImm w := by
  cases i <;> rfl

/-- An immediate of N bytes is put back as it was. -/
theorem Instr.withImm_immValue (i : Instr) : i.withImm i.immValue = i := by
  cases i <;> simp [Instr.withImm, Instr.immValue]

/-- The immediate fits its N bytes. -/
theorem Instr.immValue_lt (i : Instr) : i.immValue < 256 ^ i.immLen := by
  cases i
  case push1 imm => exact imm.isLt
  case push2 imm => exact imm.isLt
  case push4 imm => exact imm.isLt
  case push29 imm => exact imm.isLt
  all_goals exact Nat.one_pos

/-- The number an instruction's immediate was made from. -/
theorem Instr.immValue_withImm (i : Instr) (v : Nat) (h : v < 256 ^ i.immLen) : (i.withImm v).immValue = v := by
  cases i
  case push1 imm => exact Nat.mod_eq_of_lt h
  case push2 imm => exact Nat.mod_eq_of_lt h
  case push4 imm => exact Nat.mod_eq_of_lt h
  case push29 imm => exact Nat.mod_eq_of_lt h
  all_goals exact (Nat.lt_one_iff.1 h).symm

/-- Every instruction's row is searched by the decoder. -/
theorem Instr.template_mem (i : Instr) : i.withImm 0 ∈ Instr.templates := by
  cases i <;> simp [Instr.withImm, Instr.templates]

/-- No two rows of the table share a byte (R71). -/
theorem Instr.templates_opcodes_distinct :
    ∀ i ∈ Instr.templates, ∀ j ∈ Instr.templates, i.opcode = j.opcode → i = j := by decide

/-- A template's immediate is 0. -/
theorem Instr.template_withImm_zero : ∀ i ∈ Instr.templates, i.withImm 0 = i := by decide

/-- What the decoder finds for a byte. -/
theorem decodeOp_eq_some {cfg : Config} {b : Byte} {i : Instr} :
    decodeOp cfg b = some i ↔ i ∈ Instr.templates ∧ i.opcode = b ∧ i.wellFormed cfg = true := by
  constructor
  · intro h
    have h1 := List.mem_of_find?_eq_some h
    have h2 := List.find?_some h
    simp only [Bool.and_eq_true, beq_iff_eq] at h2
    exact ⟨h1, h2⟩
  · rintro ⟨h1, h2, h3⟩
    cases hd : decodeOp cfg b with
    | none =>
      have := List.find?_eq_none.1 hd i h1
      simp [h2, h3] at this
    | some j =>
      have hj1 := List.mem_of_find?_eq_some hd
      have hj2 := List.find?_some hd
      simp only [Bool.and_eq_true, beq_iff_eq] at hj2
      rw [Instr.templates_opcodes_distinct j hj1 i h1 (by rw [hj2.1, h2])]

/-- An instruction the configuration has is found by its opcode. -/
theorem decodeOp_opcode {cfg : Config} {i : Instr} (h : i.wellFormed cfg = true) :
    decodeOp cfg i.opcode = some (i.withImm 0) :=
  decodeOp_eq_some.2 ⟨i.template_mem, by simp, by simpa using h⟩

/-! ### The decoder's cases -/

@[simp] theorem decode_nil (cfg : Config) : decode cfg [] = .empty := rfl

theorem decode_cons_eq (cfg : Config) (b : Byte) (rest : List Byte) :
    decode cfg (b :: rest) =
      match decodeOp cfg b with
      | none => .unknown b
      | some i =>
        if rest.length < i.immLen then .truncated i
        else .instr (i.withImm (beNat (rest.take i.immLen))) (rest.drop i.immLen) := rfl

/-- Everything the decoder can answer on a byte and the bytes after it. -/
theorem decode_cons (cfg : Config) (b : Byte) (rest : List Byte) :
    (decodeOp cfg b = none ∧ decode cfg (b :: rest) = .unknown b) ∨
    (∃ i, decodeOp cfg b = some i ∧ rest.length < i.immLen ∧ decode cfg (b :: rest) = .truncated i) ∨
    (∃ i, decodeOp cfg b = some i ∧ i.immLen ≤ rest.length ∧
      decode cfg (b :: rest) = .instr (i.withImm (beNat (rest.take i.immLen))) (rest.drop i.immLen)) := by
  cases h : decodeOp cfg b with
  | none => exact .inl ⟨rfl, by simp [decode, h]⟩
  | some i =>
    by_cases hl : rest.length < i.immLen
    · exact .inr (.inl ⟨i, rfl, hl, by simp [decode, h, hl]⟩)
    · exact .inr (.inr ⟨i, rfl, by omega, by simp [decode, h, hl]⟩)

/-- A decoded instruction's opcode is the first byte, and its row's condition holds. -/
theorem decode_instr_head {cfg : Config} {b : Byte} {bs rest : List Byte} {i : Instr}
    (h : decode cfg (b :: bs) = .instr i rest) : i.opcode = b ∧ i.wellFormed cfg = true := by
  rcases decode_cons cfg b bs with ⟨_, h'⟩ | ⟨j, _, _, h'⟩ | ⟨j, hj, _, h'⟩ <;> rw [h'] at h
  · cases h
  · cases h
  · obtain ⟨_, h2, h3⟩ := decodeOp_eq_some.1 hj
    cases h
    exact ⟨by simpa using h2, by simpa using h3⟩

/-- A truncated instruction's opcode is the first byte, and its row's condition holds. -/
theorem decode_truncated_head {cfg : Config} {b : Byte} {bs : List Byte} {i : Instr}
    (h : decode cfg (b :: bs) = .truncated i) :
    i.opcode = b ∧ i.wellFormed cfg = true ∧ bs.length < i.immLen := by
  rcases decode_cons cfg b bs with ⟨_, h'⟩ | ⟨j, hj, hl, h'⟩ | ⟨j, _, _, h'⟩ <;> rw [h'] at h
  · cases h
  · obtain ⟨_, h2, h3⟩ := decodeOp_eq_some.1 hj
    cases h
    exact ⟨h2, h3, hl⟩
  · cases h

end Sys2Proof

namespace Sys2Proof.Machine

/-! ### The bytes of a word (00_scope.md R8) -/

@[simp] theorem wordBytes_length (w : Word) : (wordBytes w).length = 32 := beBytes_length ..

theorem wordBytes_getElem? (w : Word) (k : Nat) (hk : k < 32) : (wordBytes w)[k]? = some (wordByte w k) := by
  rw [wordBytes, beBytes_getElem? _ _ _ hk, wordByte]

/-- Byte `k` of a word made of 32 bytes. -/
theorem wordByte_wordOfBytes (bs : List Byte) (h : bs.length = 32) (k : Nat) (hk : k < 32) :
    bs[k]? = some (wordByte (wordOfBytes bs) k) := by
  have hlt := beNat_lt bs
  rw [h] at hlt
  have e : (wordOfBytes bs).toNat = beNat bs := by
    rw [wordOfBytes, BitVec.toNat_ofNat]
    exact Nat.mod_eq_of_lt (Nat.lt_of_lt_of_le hlt (by decide))
  rw [wordByte, e, ← beBytes_getElem? 32 (beNat bs) k hk, beBytes_beNat bs 32 h]

end Sys2Proof.Machine
end

