-- ==== Sys2Proof/Laws/Memory.lean ====
section
/-! SUPPORT. Laws of linear memory: reading after writing, and that every write keeps the canonical form and
the bound (spec/20_memory.md R54, R57, R58). -/

namespace Sys2Proof

/-! ### Reading -/

@[simp] theorem Memory.read_nil (a : Nat) : Memory.read [] a = Config.unlistedByte := rfl

theorem Memory.read_cons (x : Nat) (c : Byte) (m : Memory) (a : Nat) :
    Memory.read ((x, c) :: m) a = if x = a then c else Memory.read m a := rfl

theorem Memory.wfFrom_cons (lo x : Nat) (c : Byte) (m : Memory) :
    Memory.wfFrom lo ((x, c) :: m) = true ↔
      lo ≤ x ∧ c ≠ Config.unlistedByte ∧ Memory.wfFrom (x + 1) m = true := by
  simp [Memory.wfFrom, and_assoc]

/-- A canonical memory from `lo` on reads as unlisted below `lo`. -/
theorem Memory.read_below {lo a : Nat} {m : Memory} (h : Memory.wfFrom lo m = true) (ha : a < lo) :
    m.read a = Config.unlistedByte := by
  induction m generalizing lo with
  | nil => rfl
  | cons e m ih =>
    obtain ⟨x, c⟩ := e
    obtain ⟨h1, _, h3⟩ := (Memory.wfFrom_cons ..).1 h
    rw [Memory.read_cons, if_neg (by omega)]
    exact ih h3 (by omega)

/-- Reading after a write in a canonical memory. -/
theorem Memory.read_write {lo : Nat} {m : Memory} (h : Memory.wfFrom lo m = true) (a : Nat) (b : Byte) (x : Nat) :
    (m.write a b).read x = if x = a then b else m.read x := by
  induction m generalizing lo with
  | nil =>
    unfold Memory.write
    split
    · rename_i hb
      simp [hb]
    · rw [Memory.read_cons]
      by_cases hx : x = a
      · simp [hx]
      · rw [if_neg (fun e => hx e.symm), if_neg hx]
  | cons e m ih =>
    obtain ⟨y, c⟩ := e
    obtain ⟨h1, h2, h3⟩ := (Memory.wfFrom_cons ..).1 h
    unfold Memory.write
    split
    · rename_i hay
      have hm := fun k (hk : k < y + 1) => Memory.read_below h3 hk
      split
      · rename_i hb
        split
        · subst_vars
          rw [Memory.read_cons, if_neg (by omega), hm _ (by omega)]
        · rfl
      · rw [Memory.read_cons]
        by_cases hx : x = a
        · simp [hx]
        · rw [if_neg (fun e => hx e.symm), if_neg hx]
    · split
      · rename_i hay
        subst hay
        split
        · rename_i hb
          by_cases hx : x = a
          · subst hx
            rw [if_pos rfl, Memory.read_below h3 (by omega), hb]
          · rw [if_neg hx, Memory.read_cons, if_neg (fun e => hx e.symm)]
        · rw [Memory.read_cons, Memory.read_cons]
          by_cases hx : x = a
          · simp [hx]
          · rw [if_neg (fun e => hx e.symm), if_neg hx, if_neg (fun e => hx e.symm)]
      · rename_i h4 h5
        rw [Memory.read_cons, Memory.read_cons, ih h3]
        by_cases hx : x = a
        · subst hx
          rw [if_neg (fun e => h5 e.symm), if_pos rfl, if_pos rfl]
        · rw [if_neg hx, if_neg hx]

/-! ### The canonical form -/

theorem Memory.wfFrom_mono {lo hi : Nat} {m : Memory} (h : Memory.wfFrom hi m = true) (hl : lo ≤ hi) :
    Memory.wfFrom lo m = true := by
  cases m with
  | nil => rfl
  | cons e m =>
    obtain ⟨x, c⟩ := e
    rw [Memory.wfFrom_cons] at h ⊢
    exact ⟨by omega, h.2⟩

theorem Memory.write_wfFrom {lo : Nat} {m : Memory} (h : Memory.wfFrom lo m = true) {a : Nat} (ha : lo ≤ a)
    (b : Byte) : Memory.wfFrom lo (m.write a b) = true := by
  induction m generalizing lo with
  | nil =>
    unfold Memory.write
    split
    · rfl
    · rename_i hb
      rw [Memory.wfFrom_cons]
      exact ⟨ha, hb, rfl⟩
  | cons e m ih =>
    obtain ⟨y, c⟩ := e
    obtain ⟨h1, h2, h3⟩ := (Memory.wfFrom_cons ..).1 h
    unfold Memory.write
    split
    · split
      · exact h
      · rename_i hay hb
        rw [Memory.wfFrom_cons, Memory.wfFrom_cons]
        exact ⟨ha, hb, by omega, h2, h3⟩
    · split
      · split
        · exact Memory.wfFrom_mono h3 (by omega)
        · rename_i hay hb
          subst hay
          rw [Memory.wfFrom_cons]
          exact ⟨ha, hb, h3⟩
      · rw [Memory.wfFrom_cons]
        exact ⟨h1, h2, ih h3 (by omega)⟩

/-- A write keeps the canonical form. -/
theorem Memory.write_wf {m : Memory} (h : m.wf = true) (a : Nat) (b : Byte) : (m.write a b).wf = true :=
  Memory.write_wfFrom h (Nat.zero_le a) b

theorem Memory.below_cons (size x : Nat) (c : Byte) (m : Memory) :
    Memory.below size ((x, c) :: m) = true ↔ x < size ∧ Memory.below size m = true := by
  simp [Memory.below]

/-- A write below the bound keeps the bound. -/
theorem Memory.write_below {size : Nat} {m : Memory} (h : m.below size = true) {a : Nat} (ha : a < size) (b : Byte) :
    (m.write a b).below size = true := by
  induction m with
  | nil =>
    unfold Memory.write
    split
    · rfl
    · rw [Memory.below_cons]
      exact ⟨ha, rfl⟩
  | cons e m ih =>
    obtain ⟨y, c⟩ := e
    rw [Memory.below_cons] at h
    unfold Memory.write
    split
    · split
      · rw [Memory.below_cons]
        exact h
      · rw [Memory.below_cons, Memory.below_cons]
        exact ⟨ha, h⟩
    · split
      · split
        · exact h.2
        · rw [Memory.below_cons]
          exact ⟨ha, h.2⟩
      · rw [Memory.below_cons]
        exact ⟨h.1, ih h.2⟩

/-- Two canonical memories that read alike everywhere are the same list. -/
theorem Memory.ext_read {lo : Nat} {m n : Memory} (hm : Memory.wfFrom lo m = true) (hn : Memory.wfFrom lo n = true)
    (h : ∀ a, m.read a = n.read a) : m = n := by
  induction m generalizing lo n with
  | nil =>
    cases n with
    | nil => rfl
    | cons e n =>
      obtain ⟨y, d⟩ := e
      obtain ⟨_, h2, _⟩ := (Memory.wfFrom_cons ..).1 hn
      have := h y
      rw [Memory.read_cons, if_pos rfl] at this
      exact absurd this.symm h2
  | cons e m ih =>
    obtain ⟨x, c⟩ := e
    obtain ⟨_, hc, hm'⟩ := (Memory.wfFrom_cons ..).1 hm
    cases n with
    | nil =>
      have := h x
      rw [Memory.read_cons, if_pos rfl] at this
      exact absurd this hc
    | cons e' n =>
      obtain ⟨y, d⟩ := e'
      obtain ⟨_, hd, hn'⟩ := (Memory.wfFrom_cons ..).1 hn
      have hx := h x
      have hy := h y
      simp only [Memory.read_cons] at hx hy
      have hxy : x = y := by
        rcases Nat.lt_trichotomy x y with hlt | heq | hgt
        · rw [if_pos trivial, if_neg (by omega), Memory.read_below hn' (by omega)] at hx
          exact absurd hx hc
        · exact heq
        · rw [if_neg (by omega), if_pos trivial, Memory.read_below hm' (by omega)] at hy
          exact absurd hy.symm hd
      subst hxy
      simp only [if_true] at hx
      subst hx
      congr 1
      refine ih hm' hn' fun a => ?_
      have ha := h a
      simp only [Memory.read_cons] at ha
      by_cases hxa : x = a
      · subst hxa
        rw [Memory.read_below hm' (by omega), Memory.read_below hn' (by omega)]
      · simpa [hxa] using ha

/-! ### Byte strings -/

theorem Memory.writeBytes_wf {m : Memory} (h : m.wf = true) (a : Nat) (bs : List Byte) :
    (m.writeBytes a bs).wf = true := by
  induction bs generalizing m a with
  | nil => exact h
  | cons b bs ih => exact ih (Memory.write_wf h a b) (a + 1)

theorem Memory.writeBytes_below {size : Nat} {m : Memory} (h : m.below size = true) {a : Nat} {bs : List Byte}
    (ha : a + bs.length ≤ size) : (m.writeBytes a bs).below size = true := by
  induction bs generalizing m a with
  | nil => exact h
  | cons b bs ih =>
    simp only [List.length_cons] at ha
    exact ih (Memory.write_below h (by omega) b) (by omega)

/-- Reading after a byte string was stored. -/
theorem Memory.read_writeBytes {m : Memory} (h : m.wf = true) (a : Nat) (bs : List Byte) (x : Nat) :
    (m.writeBytes a bs).read x = if a ≤ x ∧ x < a + bs.length then bs.getD (x - a) 0 else m.read x := by
  induction bs generalizing m a with
  | nil => simp [Memory.writeBytes] <;> omega
  | cons b bs ih =>
    rw [Memory.writeBytes, ih (Memory.write_wf h a b), Memory.read_write h]
    simp only [List.length_cons]
    by_cases hx : x = a
    · subst hx
      rw [if_neg (by omega), if_pos rfl, if_pos (by omega)]
      simp
    · rw [if_neg hx]
      by_cases hr : a + 1 ≤ x ∧ x < a + 1 + bs.length
      · rw [if_pos hr, if_pos (by omega)]
        obtain ⟨k, hk⟩ : ∃ k, x - a = k + 1 := ⟨x - a - 1, by omega⟩
        rw [hk, show x - (a + 1) = k by omega]
        simp
      · rw [if_neg hr, if_neg (by omega)]

end Sys2Proof
end

