-- ==== Sys2Proof/Laws/State.lean ====
section
/-! SUPPORT. What each named update of the state leaves in each field: one lemma per field per update. -/

namespace Sys2Proof.Machine

variable (s : State)

/-! ### `toPc` -/

/-- A number of PC_WIDTH bits is held as it is. -/
theorem State.toPc_of_lt {p : Nat} (h : p < 2 ^ s.cfg.pcWidth) : s.toPc p = p := Nat.mod_eq_of_lt h

theorem State.toPc_lt (p : Nat) : s.toPc p < 2 ^ s.cfg.pcWidth := Nat.mod_lt _ (Nat.two_pow_pos _)

/-! ### `setPc` -/

@[simp] theorem State.setPc_pc (p : Nat) : (s.setPc p).pc = s.toPc p := rfl
@[simp] theorem State.setPc_sp (p : Nat) : (s.setPc p).sp = s.sp := rfl
@[simp] theorem State.setPc_stack (p : Nat) : (s.setPc p).stack = s.stack := rfl
@[simp] theorem State.setPc_mem (p : Nat) : (s.setPc p).mem = s.mem := rfl
@[simp] theorem State.setPc_status (p : Nat) : (s.setPc p).status = s.status := rfl
@[simp] theorem State.setPc_haltCode (p : Nat) : (s.setPc p).haltCode = s.haltCode := rfl
@[simp] theorem State.setPc_faultCode (p : Nat) : (s.setPc p).faultCode = s.faultCode := rfl
@[simp] theorem State.setPc_endPc (p : Nat) : (s.setPc p).endPc = s.endPc := rfl
@[simp] theorem State.setPc_endOpcode (p : Nat) : (s.setPc p).endOpcode = s.endOpcode := rfl
@[simp] theorem State.setPc_code (p : Nat) : (s.setPc p).code = s.code := rfl
@[simp] theorem State.setPc_calldata (p : Nat) : (s.setPc p).calldata = s.calldata := rfl
@[simp] theorem State.setPc_cfg (p : Nat) : (s.setPc p).cfg = s.cfg := rfl
@[simp] theorem State.setPc_trace (p : Nat) : (s.setPc p).trace = s.trace := rfl
@[simp] theorem State.setPc_codeLen (p : Nat) : (s.setPc p).codeLen = s.codeLen := rfl
@[simp] theorem State.setPc_toPc (p : Nat) (x : Nat) : (s.setPc p).toPc x = s.toPc x := rfl

/-! ### `setSp` -/

@[simp] theorem State.setSp_pc (n : Nat) : (s.setSp n).pc = s.pc := rfl
@[simp] theorem State.setSp_sp (n : Nat) : (s.setSp n).sp = n := rfl
@[simp] theorem State.setSp_stack (n : Nat) : (s.setSp n).stack = s.stack := rfl
@[simp] theorem State.setSp_mem (n : Nat) : (s.setSp n).mem = s.mem := rfl
@[simp] theorem State.setSp_status (n : Nat) : (s.setSp n).status = s.status := rfl
@[simp] theorem State.setSp_haltCode (n : Nat) : (s.setSp n).haltCode = s.haltCode := rfl
@[simp] theorem State.setSp_faultCode (n : Nat) : (s.setSp n).faultCode = s.faultCode := rfl
@[simp] theorem State.setSp_endPc (n : Nat) : (s.setSp n).endPc = s.endPc := rfl
@[simp] theorem State.setSp_endOpcode (n : Nat) : (s.setSp n).endOpcode = s.endOpcode := rfl
@[simp] theorem State.setSp_code (n : Nat) : (s.setSp n).code = s.code := rfl
@[simp] theorem State.setSp_calldata (n : Nat) : (s.setSp n).calldata = s.calldata := rfl
@[simp] theorem State.setSp_cfg (n : Nat) : (s.setSp n).cfg = s.cfg := rfl
@[simp] theorem State.setSp_trace (n : Nat) : (s.setSp n).trace = s.trace := rfl
@[simp] theorem State.setSp_codeLen (n : Nat) : (s.setSp n).codeLen = s.codeLen := rfl
@[simp] theorem State.setSp_toPc (n : Nat) (x : Nat) : (s.setSp n).toPc x = s.toPc x := rfl

/-! ### `setSlot` -/

@[simp] theorem State.setSlot_pc (i : Nat) (v : Word) : (s.setSlot i v).pc = s.pc := rfl
@[simp] theorem State.setSlot_sp (i : Nat) (v : Word) : (s.setSlot i v).sp = s.sp := rfl
@[simp] theorem State.setSlot_stack (i : Nat) (v : Word) : (s.setSlot i v).stack = s.stack.set i v := rfl
@[simp] theorem State.setSlot_mem (i : Nat) (v : Word) : (s.setSlot i v).mem = s.mem := rfl
@[simp] theorem State.setSlot_status (i : Nat) (v : Word) : (s.setSlot i v).status = s.status := rfl
@[simp] theorem State.setSlot_haltCode (i : Nat) (v : Word) : (s.setSlot i v).haltCode = s.haltCode := rfl
@[simp] theorem State.setSlot_faultCode (i : Nat) (v : Word) : (s.setSlot i v).faultCode = s.faultCode := rfl
@[simp] theorem State.setSlot_endPc (i : Nat) (v : Word) : (s.setSlot i v).endPc = s.endPc := rfl
@[simp] theorem State.setSlot_endOpcode (i : Nat) (v : Word) : (s.setSlot i v).endOpcode = s.endOpcode := rfl
@[simp] theorem State.setSlot_code (i : Nat) (v : Word) : (s.setSlot i v).code = s.code := rfl
@[simp] theorem State.setSlot_calldata (i : Nat) (v : Word) : (s.setSlot i v).calldata = s.calldata := rfl
@[simp] theorem State.setSlot_cfg (i : Nat) (v : Word) : (s.setSlot i v).cfg = s.cfg := rfl
@[simp] theorem State.setSlot_trace (i : Nat) (v : Word) : (s.setSlot i v).trace = s.trace := rfl
@[simp] theorem State.setSlot_codeLen (i : Nat) (v : Word) : (s.setSlot i v).codeLen = s.codeLen := rfl
@[simp] theorem State.setSlot_toPc (i : Nat) (v : Word) (x : Nat) : (s.setSlot i v).toPc x = s.toPc x := rfl

/-! ### `setMem` -/

@[simp] theorem State.setMem_pc (m : Memory) : (s.setMem m).pc = s.pc := rfl
@[simp] theorem State.setMem_sp (m : Memory) : (s.setMem m).sp = s.sp := rfl
@[simp] theorem State.setMem_stack (m : Memory) : (s.setMem m).stack = s.stack := rfl
@[simp] theorem State.setMem_mem (m : Memory) : (s.setMem m).mem = m := rfl
@[simp] theorem State.setMem_status (m : Memory) : (s.setMem m).status = s.status := rfl
@[simp] theorem State.setMem_haltCode (m : Memory) : (s.setMem m).haltCode = s.haltCode := rfl
@[simp] theorem State.setMem_faultCode (m : Memory) : (s.setMem m).faultCode = s.faultCode := rfl
@[simp] theorem State.setMem_endPc (m : Memory) : (s.setMem m).endPc = s.endPc := rfl
@[simp] theorem State.setMem_endOpcode (m : Memory) : (s.setMem m).endOpcode = s.endOpcode := rfl
@[simp] theorem State.setMem_code (m : Memory) : (s.setMem m).code = s.code := rfl
@[simp] theorem State.setMem_calldata (m : Memory) : (s.setMem m).calldata = s.calldata := rfl
@[simp] theorem State.setMem_cfg (m : Memory) : (s.setMem m).cfg = s.cfg := rfl
@[simp] theorem State.setMem_trace (m : Memory) : (s.setMem m).trace = s.trace := rfl
@[simp] theorem State.setMem_codeLen (m : Memory) : (s.setMem m).codeLen = s.codeLen := rfl
@[simp] theorem State.setMem_toPc (m : Memory) (x : Nat) : (s.setMem m).toPc x = s.toPc x := rfl

/-! ### `advance` -/

@[simp] theorem State.advance_pc (n : Nat) : (s.advance n).pc = s.toPc (s.pc + 1 + n) := rfl
@[simp] theorem State.advance_sp (n : Nat) : (s.advance n).sp = s.sp := rfl
@[simp] theorem State.advance_stack (n : Nat) : (s.advance n).stack = s.stack := rfl
@[simp] theorem State.advance_mem (n : Nat) : (s.advance n).mem = s.mem := rfl
@[simp] theorem State.advance_status (n : Nat) : (s.advance n).status = s.status := rfl
@[simp] theorem State.advance_haltCode (n : Nat) : (s.advance n).haltCode = s.haltCode := rfl
@[simp] theorem State.advance_faultCode (n : Nat) : (s.advance n).faultCode = s.faultCode := rfl
@[simp] theorem State.advance_endPc (n : Nat) : (s.advance n).endPc = s.endPc := rfl
@[simp] theorem State.advance_endOpcode (n : Nat) : (s.advance n).endOpcode = s.endOpcode := rfl
@[simp] theorem State.advance_code (n : Nat) : (s.advance n).code = s.code := rfl
@[simp] theorem State.advance_calldata (n : Nat) : (s.advance n).calldata = s.calldata := rfl
@[simp] theorem State.advance_cfg (n : Nat) : (s.advance n).cfg = s.cfg := rfl
@[simp] theorem State.advance_trace (n : Nat) : (s.advance n).trace = s.trace := rfl
@[simp] theorem State.advance_codeLen (n : Nat) : (s.advance n).codeLen = s.codeLen := rfl
@[simp] theorem State.advance_toPc (n : Nat) (x : Nat) : (s.advance n).toPc x = s.toPc x := rfl

/-! ### `pop` -/

@[simp] theorem State.pop_pc (n : Nat) : (s.pop n).pc = s.pc := rfl
@[simp] theorem State.pop_sp (n : Nat) : (s.pop n).sp = s.sp - n := rfl
@[simp] theorem State.pop_stack (n : Nat) : (s.pop n).stack = s.stack := rfl
@[simp] theorem State.pop_mem (n : Nat) : (s.pop n).mem = s.mem := rfl
@[simp] theorem State.pop_status (n : Nat) : (s.pop n).status = s.status := rfl
@[simp] theorem State.pop_haltCode (n : Nat) : (s.pop n).haltCode = s.haltCode := rfl
@[simp] theorem State.pop_faultCode (n : Nat) : (s.pop n).faultCode = s.faultCode := rfl
@[simp] theorem State.pop_endPc (n : Nat) : (s.pop n).endPc = s.endPc := rfl
@[simp] theorem State.pop_endOpcode (n : Nat) : (s.pop n).endOpcode = s.endOpcode := rfl
@[simp] theorem State.pop_code (n : Nat) : (s.pop n).code = s.code := rfl
@[simp] theorem State.pop_calldata (n : Nat) : (s.pop n).calldata = s.calldata := rfl
@[simp] theorem State.pop_cfg (n : Nat) : (s.pop n).cfg = s.cfg := rfl
@[simp] theorem State.pop_trace (n : Nat) : (s.pop n).trace = s.trace := rfl
@[simp] theorem State.pop_codeLen (n : Nat) : (s.pop n).codeLen = s.codeLen := rfl
@[simp] theorem State.pop_toPc (n : Nat) (x : Nat) : (s.pop n).toPc x = s.toPc x := rfl

/-! ### `push` -/

@[simp] theorem State.push_pc (v : Word) : (s.push v).pc = s.pc := rfl
@[simp] theorem State.push_sp (v : Word) : (s.push v).sp = s.sp + 1 := rfl
@[simp] theorem State.push_stack (v : Word) : (s.push v).stack = s.stack.set s.sp v := rfl
@[simp] theorem State.push_mem (v : Word) : (s.push v).mem = s.mem := rfl
@[simp] theorem State.push_status (v : Word) : (s.push v).status = s.status := rfl
@[simp] theorem State.push_haltCode (v : Word) : (s.push v).haltCode = s.haltCode := rfl
@[simp] theorem State.push_faultCode (v : Word) : (s.push v).faultCode = s.faultCode := rfl
@[simp] theorem State.push_endPc (v : Word) : (s.push v).endPc = s.endPc := rfl
@[simp] theorem State.push_endOpcode (v : Word) : (s.push v).endOpcode = s.endOpcode := rfl
@[simp] theorem State.push_code (v : Word) : (s.push v).code = s.code := rfl
@[simp] theorem State.push_calldata (v : Word) : (s.push v).calldata = s.calldata := rfl
@[simp] theorem State.push_cfg (v : Word) : (s.push v).cfg = s.cfg := rfl
@[simp] theorem State.push_trace (v : Word) : (s.push v).trace = s.trace := rfl
@[simp] theorem State.push_codeLen (v : Word) : (s.push v).codeLen = s.codeLen := rfl
@[simp] theorem State.push_toPc (v : Word) (x : Nat) : (s.push v).toPc x = s.toPc x := rfl

/-! ### `setFromTop` -/

@[simp] theorem State.setFromTop_pc (d : Nat) (v : Word) : (s.setFromTop d v).pc = s.pc := rfl
@[simp] theorem State.setFromTop_sp (d : Nat) (v : Word) : (s.setFromTop d v).sp = s.sp := rfl
@[simp] theorem State.setFromTop_stack (d : Nat) (v : Word) : (s.setFromTop d v).stack = s.stack.set (s.sp - d) v := rfl
@[simp] theorem State.setFromTop_mem (d : Nat) (v : Word) : (s.setFromTop d v).mem = s.mem := rfl
@[simp] theorem State.setFromTop_status (d : Nat) (v : Word) : (s.setFromTop d v).status = s.status := rfl
@[simp] theorem State.setFromTop_haltCode (d : Nat) (v : Word) : (s.setFromTop d v).haltCode = s.haltCode := rfl
@[simp] theorem State.setFromTop_faultCode (d : Nat) (v : Word) : (s.setFromTop d v).faultCode = s.faultCode := rfl
@[simp] theorem State.setFromTop_endPc (d : Nat) (v : Word) : (s.setFromTop d v).endPc = s.endPc := rfl
@[simp] theorem State.setFromTop_endOpcode (d : Nat) (v : Word) : (s.setFromTop d v).endOpcode = s.endOpcode := rfl
@[simp] theorem State.setFromTop_code (d : Nat) (v : Word) : (s.setFromTop d v).code = s.code := rfl
@[simp] theorem State.setFromTop_calldata (d : Nat) (v : Word) : (s.setFromTop d v).calldata = s.calldata := rfl
@[simp] theorem State.setFromTop_cfg (d : Nat) (v : Word) : (s.setFromTop d v).cfg = s.cfg := rfl
@[simp] theorem State.setFromTop_trace (d : Nat) (v : Word) : (s.setFromTop d v).trace = s.trace := rfl
@[simp] theorem State.setFromTop_codeLen (d : Nat) (v : Word) : (s.setFromTop d v).codeLen = s.codeLen := rfl
@[simp] theorem State.setFromTop_toPc (d : Nat) (v : Word) (x : Nat) : (s.setFromTop d v).toPc x = s.toPc x := rfl

/-! ### `enterFault` -/

@[simp] theorem State.enterFault_pc (f : FaultCode) (op : Byte) : (s.enterFault f op).pc = s.pc := rfl
@[simp] theorem State.enterFault_sp (f : FaultCode) (op : Byte) : (s.enterFault f op).sp = s.sp := rfl
@[simp] theorem State.enterFault_stack (f : FaultCode) (op : Byte) : (s.enterFault f op).stack = s.stack := rfl
@[simp] theorem State.enterFault_mem (f : FaultCode) (op : Byte) : (s.enterFault f op).mem = s.mem := rfl
@[simp] theorem State.enterFault_status (f : FaultCode) (op : Byte) : (s.enterFault f op).status = .faulted := rfl
@[simp] theorem State.enterFault_haltCode (f : FaultCode) (op : Byte) : (s.enterFault f op).haltCode = s.haltCode := rfl
@[simp] theorem State.enterFault_faultCode (f : FaultCode) (op : Byte) : (s.enterFault f op).faultCode = f := rfl
@[simp] theorem State.enterFault_endPc (f : FaultCode) (op : Byte) : (s.enterFault f op).endPc = s.pc := rfl
@[simp] theorem State.enterFault_endOpcode (f : FaultCode) (op : Byte) : (s.enterFault f op).endOpcode = op := rfl
@[simp] theorem State.enterFault_code (f : FaultCode) (op : Byte) : (s.enterFault f op).code = s.code := rfl
@[simp] theorem State.enterFault_calldata (f : FaultCode) (op : Byte) : (s.enterFault f op).calldata = s.calldata := rfl
@[simp] theorem State.enterFault_cfg (f : FaultCode) (op : Byte) : (s.enterFault f op).cfg = s.cfg := rfl
@[simp] theorem State.enterFault_trace (f : FaultCode) (op : Byte) : (s.enterFault f op).trace = s.trace := rfl
@[simp] theorem State.enterFault_codeLen (f : FaultCode) (op : Byte) : (s.enterFault f op).codeLen = s.codeLen := rfl
@[simp] theorem State.enterFault_toPc (f : FaultCode) (op : Byte) (x : Nat) : (s.enterFault f op).toPc x = s.toPc x := rfl

/-! ### `enterHalt` -/

@[simp] theorem State.enterHalt_pc (h : HaltCode) (op : Byte) : (s.enterHalt h op).pc = s.toPc s.codeLen := rfl
@[simp] theorem State.enterHalt_sp (h : HaltCode) (op : Byte) : (s.enterHalt h op).sp = s.sp := rfl
@[simp] theorem State.enterHalt_stack (h : HaltCode) (op : Byte) : (s.enterHalt h op).stack = s.stack := rfl
@[simp] theorem State.enterHalt_mem (h : HaltCode) (op : Byte) : (s.enterHalt h op).mem = s.mem := rfl
@[simp] theorem State.enterHalt_status (h : HaltCode) (op : Byte) : (s.enterHalt h op).status = .halted := rfl
@[simp] theorem State.enterHalt_haltCode (h : HaltCode) (op : Byte) : (s.enterHalt h op).haltCode = h := rfl
@[simp] theorem State.enterHalt_faultCode (h : HaltCode) (op : Byte) : (s.enterHalt h op).faultCode = s.faultCode := rfl
@[simp] theorem State.enterHalt_endPc (h : HaltCode) (op : Byte) : (s.enterHalt h op).endPc = s.pc := rfl
@[simp] theorem State.enterHalt_endOpcode (h : HaltCode) (op : Byte) : (s.enterHalt h op).endOpcode = op := rfl
@[simp] theorem State.enterHalt_code (h : HaltCode) (op : Byte) : (s.enterHalt h op).code = s.code := rfl
@[simp] theorem State.enterHalt_calldata (h : HaltCode) (op : Byte) : (s.enterHalt h op).calldata = s.calldata := rfl
@[simp] theorem State.enterHalt_cfg (h : HaltCode) (op : Byte) : (s.enterHalt h op).cfg = s.cfg := rfl
@[simp] theorem State.enterHalt_trace (h : HaltCode) (op : Byte) : (s.enterHalt h op).trace = s.trace := rfl
@[simp] theorem State.enterHalt_codeLen (h : HaltCode) (op : Byte) : (s.enterHalt h op).codeLen = s.codeLen := rfl
@[simp] theorem State.enterHalt_toPc (h : HaltCode) (op : Byte) (x : Nat) : (s.enterHalt h op).toPc x = s.toPc x := rfl

/-! ### `placeAtPc` -/

@[simp] theorem State.placeAtPc_pc (bytes : List Byte) : (s.placeAtPc bytes).pc = s.pc := rfl
@[simp] theorem State.placeAtPc_sp (bytes : List Byte) : (s.placeAtPc bytes).sp = s.sp := rfl
@[simp] theorem State.placeAtPc_stack (bytes : List Byte) : (s.placeAtPc bytes).stack = s.stack := rfl
@[simp] theorem State.placeAtPc_mem (bytes : List Byte) : (s.placeAtPc bytes).mem = s.mem := rfl
@[simp] theorem State.placeAtPc_status (bytes : List Byte) : (s.placeAtPc bytes).status = .running := rfl
@[simp] theorem State.placeAtPc_haltCode (bytes : List Byte) : (s.placeAtPc bytes).haltCode = s.haltCode := rfl
@[simp] theorem State.placeAtPc_faultCode (bytes : List Byte) : (s.placeAtPc bytes).faultCode = s.faultCode := rfl
@[simp] theorem State.placeAtPc_endPc (bytes : List Byte) : (s.placeAtPc bytes).endPc = s.endPc := rfl
@[simp] theorem State.placeAtPc_endOpcode (bytes : List Byte) : (s.placeAtPc bytes).endOpcode = s.endOpcode := rfl
@[simp] theorem State.placeAtPc_code (bytes : List Byte) : (s.placeAtPc bytes).code = overwriteCode s.code s.pc bytes := rfl
@[simp] theorem State.placeAtPc_calldata (bytes : List Byte) : (s.placeAtPc bytes).calldata = s.calldata := rfl
@[simp] theorem State.placeAtPc_cfg (bytes : List Byte) : (s.placeAtPc bytes).cfg = s.cfg := rfl
@[simp] theorem State.placeAtPc_trace (bytes : List Byte) : (s.placeAtPc bytes).trace = s.trace := rfl

/-! ### `emit` -/

@[simp] theorem State.emit_pc (op : Byte) : (s.emit op).pc = s.pc := by
  unfold State.emit
  split <;> rfl
@[simp] theorem State.emit_sp (op : Byte) : (s.emit op).sp = s.sp := by
  unfold State.emit
  split <;> rfl
@[simp] theorem State.emit_stack (op : Byte) : (s.emit op).stack = s.stack := by
  unfold State.emit
  split <;> rfl
@[simp] theorem State.emit_mem (op : Byte) : (s.emit op).mem = s.mem := by
  unfold State.emit
  split <;> rfl
@[simp] theorem State.emit_status (op : Byte) : (s.emit op).status = s.status := by
  unfold State.emit
  split <;> rfl
@[simp] theorem State.emit_haltCode (op : Byte) : (s.emit op).haltCode = s.haltCode := by
  unfold State.emit
  split <;> rfl
@[simp] theorem State.emit_faultCode (op : Byte) : (s.emit op).faultCode = s.faultCode := by
  unfold State.emit
  split <;> rfl
@[simp] theorem State.emit_endPc (op : Byte) : (s.emit op).endPc = s.endPc := by
  unfold State.emit
  split <;> rfl
@[simp] theorem State.emit_endOpcode (op : Byte) : (s.emit op).endOpcode = s.endOpcode := by
  unfold State.emit
  split <;> rfl
@[simp] theorem State.emit_code (op : Byte) : (s.emit op).code = s.code := by
  unfold State.emit
  split <;> rfl
@[simp] theorem State.emit_calldata (op : Byte) : (s.emit op).calldata = s.calldata := by
  unfold State.emit
  split <;> rfl
@[simp] theorem State.emit_cfg (op : Byte) : (s.emit op).cfg = s.cfg := by
  unfold State.emit
  split <;> rfl
theorem State.emit_trace (op : Byte) :
    (s.emit op).trace = if s.cfg.traceEnable then ⟨s.pc, op⟩ :: s.trace else s.trace := by
  unfold State.emit
  split <;> rfl
@[simp] theorem State.emit_codeLen (op : Byte) : (s.emit op).codeLen = s.codeLen := by simp [State.codeLen]
@[simp] theorem State.emit_toPc (op : Byte) (x : Nat) : (s.emit op).toPc x = s.toPc x := by simp [State.toPc]

/-- Emitting an event changes the trace alone. -/
theorem State.emit_restore (op : Byte) : { s.emit op with trace := s.trace } = s := by
  unfold State.emit
  split <;> rfl

/-! ### `boot` and `reset` -/

@[simp] theorem State.boot_pc (cfg : Config) (code calldata : List Byte) :
    (State.boot cfg code calldata).pc = 0 := rfl
@[simp] theorem State.boot_sp (cfg : Config) (code calldata : List Byte) :
    (State.boot cfg code calldata).sp = 0 := rfl
@[simp] theorem State.boot_stack (cfg : Config) (code calldata : List Byte) :
    (State.boot cfg code calldata).stack = List.replicate cfg.stackDepth 0 := rfl
@[simp] theorem State.boot_mem (cfg : Config) (code calldata : List Byte) :
    (State.boot cfg code calldata).mem = cfg.memInit := rfl
@[simp] theorem State.boot_status (cfg : Config) (code calldata : List Byte) :
    (State.boot cfg code calldata).status = .running := rfl
@[simp] theorem State.boot_haltCode (cfg : Config) (code calldata : List Byte) :
    (State.boot cfg code calldata).haltCode = .none := rfl
@[simp] theorem State.boot_faultCode (cfg : Config) (code calldata : List Byte) :
    (State.boot cfg code calldata).faultCode = .none := rfl
@[simp] theorem State.boot_endPc (cfg : Config) (code calldata : List Byte) :
    (State.boot cfg code calldata).endPc = 0 := rfl
@[simp] theorem State.boot_endOpcode (cfg : Config) (code calldata : List Byte) :
    (State.boot cfg code calldata).endOpcode = 0 := rfl
@[simp] theorem State.boot_code (cfg : Config) (code calldata : List Byte) :
    (State.boot cfg code calldata).code = code := rfl
@[simp] theorem State.boot_calldata (cfg : Config) (code calldata : List Byte) :
    (State.boot cfg code calldata).calldata = calldata := rfl
@[simp] theorem State.boot_cfg (cfg : Config) (code calldata : List Byte) :
    (State.boot cfg code calldata).cfg = cfg := rfl
@[simp] theorem State.boot_trace (cfg : Config) (code calldata : List Byte) :
    (State.boot cfg code calldata).trace = [] := rfl

/-- The host's reset state is a boot of this hardware with no program presented (assumption log 5). -/
theorem State.reset_eq_boot : State.reset = State.boot Config.thisHardware [] [] := rfl

end Sys2Proof.Machine
end

