-- ==== Sys2Proof/Laws/Ops.lean ====
section
/-! SUPPORT. What the shared operations do: the stack checks, slots, entering a fault or a halt, MSTORE's two
cells, jump targets, the fetch. -/

namespace Sys2Proof.Machine

/-! ### Slots -/

theorem State.slotsExist_iff (s : State) : s.slotsExist = true ↔ s.Shaped := by
  simp [State.slotsExist, State.Shaped]

/-- A slot that exists is what the stack lists there. -/
theorem State.slot_eq (s : State) {i : Nat} (h : i < s.stack.length) : s.stack[i]? = some (s.slot i) := by
  simp [State.slot, h]

theorem State.fromTop_eq (s : State) (d : Nat) : s.fromTop d = s.slot (s.sp - d) := rfl

theorem State.slot_setSlot (s : State) (i j : Nat) (v : Word) (h : i < s.stack.length) :
    (s.setSlot i v).slot j = if j = i then v else s.slot j := by
  by_cases e : j = i
  · subst e
    simp [State.slot, h]
  · rw [if_neg e]
    simp [State.slot, Ne.symm e]

@[simp] theorem State.slot_setSp (s : State) (n j : Nat) : (s.setSp n).slot j = s.slot j := rfl
@[simp] theorem State.slot_pop (s : State) (n j : Nat) : (s.pop n).slot j = s.slot j := rfl
@[simp] theorem State.slot_advance (s : State) (n j : Nat) : (s.advance n).slot j = s.slot j := rfl
@[simp] theorem State.slot_emit (s : State) (op : Byte) (j : Nat) : (s.emit op).slot j = s.slot j := by
  simp [State.slot]

theorem State.push_eq (s : State) (v : Word) : s.push v = (s.setSlot s.sp v).setSp (s.sp + 1) := rfl

/-! ### The program counter's width (R21, R22) -/

/-- A write of the program counter is the rules' `pc <- p`. -/
theorem PcBecomes.of_toPc {s t : State} {p : Nat} (h : t.pc = s.toPc p) : PcBecomes p s t :=
  fun hp => h.trans (s.toPc_of_lt hp)

/-- An admitted code is no longer than the program counter can count. -/
theorem State.InputsOk.codeLen_lt {s : State} (h : s.InputsOk) : s.codeLen < 2 ^ s.cfg.pcWidth := by
  have hw : s.cfg.maxCodeLen < 2 ^ s.cfg.pcWidth := by
    have := h.1
    simp only [Config.wf, Bool.and_eq_true, decide_eq_true_eq] at this
    exact this.1.2
  exact Nat.lt_of_le_of_lt h.2.1 hw

/-! ### Entering a fault and a halt (R201, R211) -/

theorem State.enterFault_faultsWith (s : State) (f : FaultCode) (op : Byte) :
    FaultsWith f op s (s.enterFault f op) :=
  ⟨rfl, rfl, rfl, rfl, rfl, rfl, rfl, rfl, rfl, ⟨rfl, rfl, rfl⟩, rfl⟩

theorem State.enterHalt_haltsWith (s : State) (h : HaltCode) (op : Byte) : HaltsWith h op s (s.enterHalt h op) :=
  ⟨rfl, rfl, rfl, rfl, fun hp => s.toPc_of_lt hp, rfl, rfl, rfl, rfl, ⟨rfl, rfl, rfl⟩, rfl⟩

/-! ### The stack checks (R106 to R108) -/

theorem checked_of_underflow {i : Instr} {s : State} {body : Result} (h : s.sp < i.need) :
    checked i s body = .next (s.enterFault .stackUnderflow i.opcode) := by
  simp [checked, h, raise]

theorem checked_of_overflow {i : Instr} {s : State} {body : Result} (hn : i.need ≤ s.sp) (hg : i.grow = true)
    (hs : s.sp = s.cfg.stackDepth) : checked i s body = .next (s.enterFault .stackOverflow i.opcode) := by
  unfold checked
  rw [if_neg (Nat.not_lt.2 hn), if_pos (by simp [hg, hs])]
  rfl

theorem checked_of_ok {i : Instr} {s : State} {body : Result} (hs : s.Shaped) (hn : i.need ≤ s.sp)
    (hg : i.grow = true → s.sp < s.cfg.stackDepth) : checked i s body = body := by
  unfold checked
  rw [if_neg (Nat.not_lt.2 hn), if_neg, if_pos (s.slotsExist_iff.2 hs)]
  simp only [Bool.and_eq_true, beq_iff_eq]
  rintro ⟨h1, h2⟩
  have := hg h1
  omega

/-- Everything the stack checks can answer with: a fault, or the instruction's own rule on slots that exist. -/
theorem checked_cases {i : Instr} {s t : State} {body : Result} (h : checked i s body = .next t) :
    (s.sp < i.need ∧ t = s.enterFault .stackUnderflow i.opcode) ∨
    (i.need ≤ s.sp ∧ i.grow = true ∧ s.sp = s.cfg.stackDepth ∧ t = s.enterFault .stackOverflow i.opcode) ∨
    (s.Shaped ∧ i.need ≤ s.sp ∧ (i.grow = true → s.sp < s.cfg.stackDepth) ∧ body = .next t) := by
  by_cases hn : s.sp < i.need
  · rw [checked_of_underflow hn] at h
    cases h
    exact .inl ⟨hn, rfl⟩
  · have hn' : i.need ≤ s.sp := Nat.not_lt.1 hn
    by_cases hg : i.grow = true ∧ s.sp = s.cfg.stackDepth
    · rw [checked_of_overflow hn' hg.1 hg.2] at h
      cases h
      exact .inr (.inl ⟨hn', hg.1, hg.2, rfl⟩)
    · unfold checked at h
      rw [if_neg hn, if_neg (by simpa using hg)] at h
      by_cases hs : s.slotsExist = true
      · rw [if_pos hs] at h
        have hsh := s.slotsExist_iff.1 hs
        refine .inr (.inr ⟨hsh, hn', fun hg' => ?_, h⟩)
        have h1 := hsh.2
        have h2 : s.sp ≠ s.cfg.stackDepth := fun e => hg ⟨hg', e⟩
        omega
      · rw [if_neg hs] at h
        cases h

/-! ### Cells (20_memory.md R56, R57) -/

theorem State.cellExists_iff (s : State) (c : Nat) : s.cellExists c = true ↔ c < s.cfg.memCells := by
  simp [State.cellExists]

theorem cellIndex_eq (id : Word) : cellIndex id = id.toNat / 16 := rfl

theorem State.memRead_eq (s : State) (c k : Nat) : s.memRead c k = s.mem.read (16 * c + k) := by
  simp [State.memRead, flatAddr, Config.cellBytes, Nat.mul_comm]

/-! ### MSTORE's two cells (R160, R161) -/

theorem storeWord_eq (m : Memory) (c : Nat) (v : Word) :
    storeWord m c v =
      (m.writeBytes (16 * c) ((wordBytes v).take 16)).writeBytes (16 * (c + 1)) ((wordBytes v).drop 16) := by
  simp [storeWord, writeCell, flatAddr, Config.cellBytes, Nat.mul_comm]

theorem storeWord_wf {m : Memory} (h : m.wf = true) (c : Nat) (v : Word) : (storeWord m c v).wf = true :=
  Memory.writeBytes_wf (Memory.writeBytes_wf h _ _) _ _

theorem storeWord_below {m : Memory} {size : Nat} (h : m.below size = true) {c : Nat} (v : Word)
    (hc : 16 * (c + 2) ≤ size) : (storeWord m c v).below size = true := by
  rw [storeWord_eq]
  apply Memory.writeBytes_below
  · apply Memory.writeBytes_below h
    simp
    omega
  · simp
    omega

/-- Reading after MSTORE's writes: the 32 bytes of the word from the first cell on, and every other byte as before. -/
theorem read_storeWord {m : Memory} (h : m.wf = true) (c : Nat) (v : Word) (a : Nat) :
    (storeWord m c v).read a =
      if 16 * c ≤ a ∧ a < 16 * c + 32 then wordByte v (a - 16 * c) else m.read a := by
  rw [storeWord_eq, Memory.read_writeBytes (Memory.writeBytes_wf h _ _), Memory.read_writeBytes h]
  simp only [List.length_drop, List.length_take, wordBytes_length]
  by_cases h1 : 16 * (c + 1) ≤ a ∧ a < 16 * (c + 1) + (32 - 16)
  · rw [if_pos h1, if_pos (by omega), List.getD_eq_getElem?_getD, List.getElem?_drop,
      show 16 + (a - 16 * (c + 1)) = a - 16 * c by omega, wordBytes_getElem? _ _ (by omega)]
    rfl
  · rw [if_neg h1]
    by_cases h2 : 16 * c ≤ a ∧ a < 16 * c + min 16 32
    · rw [if_pos h2, if_pos (by omega), List.getD_eq_getElem?_getD,
        List.getElem?_take_of_lt (by omega), wordBytes_getElem? _ _ (by omega)]
      rfl
    · rw [if_neg h2, if_neg (by omega)]

/-! ### Jump targets (R174) -/

theorem State.resolveTarget_past (s : State) {dest : Word} (h : s.codeLen ≤ dest.toNat) :
    s.resolveTarget dest = match s.cfg.jumpCheck with
      | .bounds => none
      | .haltOutside => some s.codeLen := by
  unfold State.resolveTarget
  rw [if_pos h]
  all_goals cases s.cfg.jumpCheck <;> rfl

theorem State.resolveTarget_inside (s : State) {dest : Word} (h : dest.toNat < s.codeLen) :
    s.resolveTarget dest =
      if s.cfg.jumpdestCheck = true ∧ s.code[dest.toNat]? ≠ some 0x5B then none
      else some dest.toNat := by
  simp [State.resolveTarget, Nat.not_le.2 h, State.codeByte, Instr.opcode, Instr.row]

/-- A resolved target is the destination itself, or CODE_LEN where it lies past the end. -/
theorem State.resolveTarget_eq {s : State} {dest : Word} {p : Nat} (h : s.resolveTarget dest = some p) :
    p = if dest.toNat < s.codeLen then dest.toNat else s.codeLen := by
  by_cases hd : s.codeLen ≤ dest.toNat
  · rw [s.resolveTarget_past hd] at h
    rw [if_neg (by omega)]
    cases hj : s.cfg.jumpCheck <;> rw [hj] at h <;> cases h
    rfl
  · rw [s.resolveTarget_inside (by omega)] at h
    rw [if_pos (by omega)]
    split at h <;> cases h
    rfl

@[simp] theorem State.emit_resolveTarget (s : State) (op : Byte) (dest : Word) :
    (s.emit op).resolveTarget dest = s.resolveTarget dest := by
  simp [State.resolveTarget, State.codeByte]

@[simp] theorem State.emit_fromTop (s : State) (op : Byte) (d : Nat) : (s.emit op).fromTop d = s.fromTop d := by
  simp [State.fromTop]

/-! ### The fetch (R101, R102) -/

theorem State.fetch_past (s : State) (h : s.codeLen ≤ s.pc) : s.fetch = .empty := by
  simp [State.fetch, h]

theorem State.fetch_inside (s : State) (h : s.pc < s.codeLen) :
    s.fetch = decode s.cfg (s.code.drop s.pc) := by
  simp [State.fetch, Nat.not_le.2 h]

/-- Where the fetch finds a byte, the code from `pc` on begins with it. -/
theorem State.code_drop (s : State) {op : Byte} (h : s.code[s.pc]? = some op) :
    s.pc < s.codeLen ∧ s.code.drop s.pc = op :: s.code.drop (s.pc + 1) := by
  obtain ⟨hl, he⟩ := List.getElem?_eq_some_iff.1 h
  exact ⟨hl, by rw [List.drop_eq_getElem_cons hl, he]⟩

/-- The placed bytes stand at the program counter. -/
theorem State.placeAtPc_drop (s : State) (bytes : List Byte) :
    (s.placeAtPc bytes).code.drop s.pc = bytes ++ s.code.drop (s.pc + bytes.length) := by
  simp only [State.placeAtPc_code, overwriteCode, List.append_assoc]
  rw [← List.append_assoc (s.code.take _), List.drop_append_of_le_length]
  · rw [List.drop_of_length_le]
    · rfl
    · simp
      omega
  · simp
    omega

end Sys2Proof.Machine
end

