-- ==== Sys2Proof/Laws/Exec.lean ====
section
/-! SUPPORT. What the shared instruction rules, `exec` and `step` can answer with, each said once. -/

namespace Sys2Proof.Machine

/-- A fault of the stack checks (R106, R107). -/
abbrev StackFault (i : Instr) (s t : State) : Prop :=
  (s.sp < i.need ∧ t = s.enterFault .stackUnderflow i.opcode) ∨
  (i.need ≤ s.sp ∧ i.grow = true ∧ s.sp = s.cfg.stackDepth ∧ t = s.enterFault .stackOverflow i.opcode)

/-- The stack checks pass, on slots that exist. -/
abbrev StackFits (i : Instr) (s : State) : Prop :=
  s.Shaped ∧ i.need ≤ s.sp ∧ (i.grow = true → s.sp < s.cfg.stackDepth)

theorem checked_next {i : Instr} {s t : State} {body : Result} (h : checked i s body = .next t) :
    StackFault i s t ∨ (StackFits i s ∧ body = .next t) := by
  rcases checked_cases h with h | h | ⟨h1, h2, h3, h4⟩
  · exact .inl (.inl h)
  · exact .inl (.inr h)
  · exact .inr ⟨⟨h1, h2, h3⟩, h4⟩

theorem checked_fits {i : Instr} {s : State} {body : Result} (h : StackFits i s) : checked i s body = body :=
  checked_of_ok h.1 h.2.1 h.2.2

/-! ### The shared rules -/

theorem pushImmediate_next {i : Instr} {v : Word} {s t : State} (h : pushImmediate i v s = .next t) :
    StackFault i s t ∨
    (StackFits i s ∧ s.codeLen < s.pc + 1 + i.immLen ∧ t = s.enterFault .immediateOutOfRange i.opcode) ∨
    (StackFits i s ∧ s.pc + 1 + i.immLen ≤ s.codeLen ∧ t = (s.push v).advance i.immLen) := by
  rcases checked_next h with h | ⟨hf, h⟩
  · exact .inl h
  · split at h <;> cases h
    · exact .inr (.inl ⟨hf, ‹_›, rfl⟩)
    · exact .inr (.inr ⟨hf, by omega, rfl⟩)

theorem dupSlot_next {i : Instr} {d : Nat} {s t : State} (h : dupSlot i d s = .next t) :
    StackFault i s t ∨ (StackFits i s ∧ t = (s.push (s.fromTop d)).advance 0) := by
  rcases checked_next h with h | ⟨hf, h⟩
  · exact .inl h
  · cases h
    exact .inr ⟨hf, rfl⟩

theorem swapSlots_next {i : Instr} {d : Nat} {s t : State} (h : swapSlots i d s = .next t) :
    StackFault i s t ∨
    (StackFits i s ∧
      t = ((s.setFromTop 1 (s.fromTop (1 + d))).setFromTop (1 + d) (s.fromTop 1)).advance 0) := by
  rcases checked_next h with h | ⟨hf, h⟩
  · exact .inl h
  · cases h
    exact .inr ⟨hf, rfl⟩

theorem binary_next {i : Instr} {f : Word → Word → Word} {s t : State} (h : binary i f s = .next t) :
    StackFault i s t ∨
    (StackFits i s ∧ t = ((s.setFromTop 2 (f (s.fromTop 1) (s.fromTop 2))).pop 1).advance 0) := by
  rcases checked_next h with h | ⟨hf, h⟩
  · exact .inl h
  · cases h
    exact .inr ⟨hf, rfl⟩

theorem unary_next {i : Instr} {g : Word → Word} {s t : State} (h : unary i g s = .next t) :
    StackFault i s t ∨ (StackFits i s ∧ t = (s.setFromTop 1 (g (s.fromTop 1))).advance 0) := by
  rcases checked_next h with h | ⟨hf, h⟩
  · exact .inl h
  · cases h
    exact .inr ⟨hf, rfl⟩

theorem execMstore_next {s t : State} (h : execMstore s = .next t) :
    StackFault .mstore s t ∨
    (StackFits .mstore s ∧ s.cfg.memCells ≤ (s.fromTop 1).toNat / 16 + 1 ∧
      t = s.enterFault .memoryOutOfRange 0x52) ∨
    (StackFits .mstore s ∧ (s.fromTop 1).toNat / 16 + 1 < s.cfg.memCells ∧
      t = ((s.setMem (storeWord s.mem ((s.fromTop 1).toNat / 16) (s.fromTop 2))).pop 2).advance 0) := by
  rcases checked_next h with h | ⟨hf, h⟩
  · exact .inl h
  · split at h <;> rename_i hc <;> cases h
    · exact .inr (.inr ⟨hf, of_decide_eq_true hc, rfl⟩)
    · exact .inr (.inl ⟨hf, Nat.not_lt.1 fun e => hc (decide_eq_true e), rfl⟩)

theorem execMload_next {s t : State} (h : execMload s = .next t) :
    StackFault .mload s t ∨
    (StackFits .mload s ∧ s.cfg.memCells ≤ (s.fromTop 1).toNat / 16 + 1 ∧
      t = s.enterFault .memoryOutOfRange 0x51) ∨
    (StackFits .mload s ∧ (s.fromTop 1).toNat / 16 + 1 < s.cfg.memCells ∧
      t = (s.setFromTop 1
        (zext256 (s.memRead ((s.fromTop 1).toNat / 16 + 1) s.cfg.mloadByteIndex.val))).advance 0) := by
  rcases checked_next h with h | ⟨hf, h⟩
  · exact .inl h
  · split at h <;> rename_i hc <;> cases h
    · exact .inr (.inr ⟨hf, of_decide_eq_true hc, rfl⟩)
    · exact .inr (.inl ⟨hf, Nat.not_lt.1 fun e => hc (decide_eq_true e), rfl⟩)

theorem execMstore_out {s : State} (hf : StackFits .mstore s)
    (hr : s.cfg.memCells ≤ (s.fromTop 1).toNat / 16 + 1) :
    execMstore s = .next (s.enterFault .memoryOutOfRange 0x52) := by
  unfold execMstore
  rw [checked_fits hf, cellIndex_eq, if_neg (fun e => Nat.not_lt.2 hr ((s.cellExists_iff _).1 e))]
  rfl

theorem execMstore_stores {s : State} (hf : StackFits .mstore s)
    (hr : (s.fromTop 1).toNat / 16 + 1 < s.cfg.memCells) :
    execMstore s =
      .next (((s.setMem (storeWord s.mem ((s.fromTop 1).toNat / 16) (s.fromTop 2))).pop 2).advance 0) := by
  unfold execMstore
  rw [checked_fits hf, cellIndex_eq, if_pos ((s.cellExists_iff _).2 hr)]

theorem execMload_out {s : State} (hf : StackFits .mload s)
    (hr : s.cfg.memCells ≤ (s.fromTop 1).toNat / 16 + 1) :
    execMload s = .next (s.enterFault .memoryOutOfRange 0x51) := by
  unfold execMload
  rw [checked_fits hf, cellIndex_eq, if_neg (fun e => Nat.not_lt.2 hr ((s.cellExists_iff _).1 e))]
  rfl

theorem execMload_reads {s : State} (hf : StackFits .mload s)
    (hr : (s.fromTop 1).toNat / 16 + 1 < s.cfg.memCells) :
    execMload s = .next ((s.setFromTop 1
      (zext256 (s.memRead ((s.fromTop 1).toNat / 16 + 1) s.cfg.mloadByteIndex.val))).advance 0) := by
  unfold execMload
  rw [checked_fits hf, cellIndex_eq, if_pos ((s.cellExists_iff _).2 hr)]

theorem jumpTo_next {i : Instr} {dest : Word} {n : Nat} {s t : State} (h : jumpTo i dest n s = .next t) :
    (s.resolveTarget dest = none ∧ t = s.enterFault .invalidJumpTarget i.opcode) ∨
    (∃ p, s.resolveTarget dest = some p ∧ t = (s.pop n).setPc p) := by
  unfold jumpTo at h
  split at h <;> cases h
  · exact .inr ⟨_, ‹_›, rfl⟩
  · exact .inl ⟨‹_›, rfl⟩

theorem execJump_next {s t : State} (h : execJump s = .next t) :
    StackFault .jump s t ∨
    (StackFits .jump s ∧ s.resolveTarget (s.fromTop 1) = none ∧ t = s.enterFault .invalidJumpTarget 0x56) ∨
    (StackFits .jump s ∧ ∃ p, s.resolveTarget (s.fromTop 1) = some p ∧ t = (s.pop 1).setPc p) := by
  rcases checked_next h with h | ⟨hf, h⟩
  · exact .inl h
  · rcases jumpTo_next h with h | h
    · exact .inr (.inl ⟨hf, h⟩)
    · exact .inr (.inr ⟨hf, h⟩)

theorem execJumpi_next {s t : State} (h : execJumpi s = .next t) :
    StackFault .jumpi s t ∨
    (StackFits .jumpi s ∧ s.fromTop 2 = 0 ∧ t = (s.pop 2).advance 0) ∨
    (StackFits .jumpi s ∧ s.fromTop 2 ≠ 0 ∧ s.resolveTarget (s.fromTop 1) = none ∧
      t = s.enterFault .invalidJumpTarget 0x57) ∨
    (StackFits .jumpi s ∧ s.fromTop 2 ≠ 0 ∧
      ∃ p, s.resolveTarget (s.fromTop 1) = some p ∧ t = (s.pop 2).setPc p) := by
  rcases checked_next h with h | ⟨hf, h⟩
  · exact .inl h
  · simp only [isTaken, bne_iff_ne] at h
    split at h
    · rcases jumpTo_next h with h | h
      · exact .inr (.inr (.inl ⟨hf, ‹_›, h⟩))
      · exact .inr (.inr (.inr ⟨hf, ‹_›, h⟩))
    · cases h
      exact .inr (.inl ⟨hf, Classical.not_not.1 ‹_›, rfl⟩)

/-! ### `exec` by instruction -/

theorem exec_stop (s : State) : exec .stop s = halt .stop .stop s := rfl
theorem exec_ret (s : State) : exec .ret s = halt .ret .ret s := rfl
theorem exec_revert (s : State) : exec .revert s = halt .revert .revert s := rfl
theorem exec_invalid (s : State) : exec .invalid s = halt .invalid .invalid s := rfl
theorem exec_add (s : State) : exec .add s = binary .add (fun a b => a + b) s := rfl
theorem exec_mul (s : State) : exec .mul s = binary .mul (fun a b => a * b) s := rfl
theorem exec_sub (s : State) : exec .sub s = binary .sub (fun a b => a - b) s := rfl
theorem exec_div (s : State) : exec .div s = binary .div divWord s := rfl
theorem exec_lt (s : State) : exec .lt s = binary .lt ltWord s := rfl
theorem exec_eq (s : State) : exec .eq s = binary .eq eqWord s := rfl
theorem exec_iszero (s : State) : exec .iszero s = unary .iszero isZeroWord s := rfl
theorem exec_not (s : State) : exec .not s = unary .not (fun a => ~~~a) s := rfl
theorem exec_push1 (imm : BitVec 8) (s : State) : exec (.push1 imm) s = pushImmediate (.push1 imm) (zext256 imm) s := rfl
theorem exec_push2 (imm : BitVec 16) (s : State) : exec (.push2 imm) s = pushImmediate (.push2 imm) (zext256 imm) s := rfl
theorem exec_push4 (imm : BitVec 32) (s : State) : exec (.push4 imm) s = pushImmediate (.push4 imm) (zext256 imm) s := rfl
theorem exec_push29 (imm : BitVec 232) (s : State) : exec (.push29 imm) s = pushImmediate (.push29 imm) (zext256 imm) s := rfl
theorem exec_dup1 (s : State) : exec .dup1 s = dupSlot .dup1 1 s := rfl
theorem exec_dup2 (s : State) : exec .dup2 s = dupSlot .dup2 2 s := rfl
theorem exec_dup3 (s : State) : exec .dup3 s = dupSlot .dup3 3 s := rfl
theorem exec_swap1 (s : State) : exec .swap1 s = swapSlots .swap1 1 s := rfl
theorem exec_swap2 (s : State) : exec .swap2 s = swapSlots .swap2 2 s := rfl
theorem exec_swap3 (s : State) : exec .swap3 s = swapSlots .swap3 3 s := rfl
theorem exec_jumpdest (s : State) : exec .jumpdest s = .next (s.advance 0) := rfl
theorem exec_calldataload (s : State) : exec .calldataload s = unary .calldataload (fun a => s.calldataWord a.toNat) s := rfl
theorem exec_calldatasize (s : State) : exec .calldatasize s = checked .calldatasize s (.next ((s.push (BitVec.ofNat 256 s.calldataLen)).advance 0)) := rfl
theorem exec_mload (s : State) : exec .mload s = execMload s := rfl
theorem exec_mstore (s : State) : exec .mstore s = execMstore s := rfl
theorem exec_jump (s : State) : exec .jump s = execJump s := rfl
theorem exec_jumpi (s : State) : exec .jumpi s = execJumpi s := rfl

/-! ### `exec` -/

/-- The instruction completes and the run goes on: what then holds of every instruction. -/
structure Completes (i : Instr) (s t : State) : Prop where
  frame : t = { s with pc := t.pc, sp := t.sp, stack := t.stack, mem := t.mem }
  cursor : (t.sp : Int) = (s.sp : Int) + cursorChange i
  bound : s.sp ≤ s.cfg.stackDepth → t.sp ≤ s.cfg.stackDepth
  length : t.stack.length = s.stack.length
  memory : i ≠ .mstore → t.mem = s.mem
  stored : i = .mstore → ∃ c v, c + 1 < s.cfg.memCells ∧ t.mem = storeWord s.mem c v
  immediate : i.immLen = 0 ∨ s.pc + 1 + i.immLen ≤ s.codeLen
  nextPc : (t.pc = s.toPc (s.pc + 1 + i.immLen) ∧ i ≠ .jump ∧ (i = .jumpi → s.fromTop 2 = 0)) ∨
    ((i = .jump ∨ i = .jumpi ∧ s.fromTop 2 ≠ 0) ∧ ∃ p, s.resolveTarget (s.fromTop 1) = some p ∧ t.pc = s.toPc p)

/-- A fault entry, a halt entry, or the completion of the instruction. -/
abbrev Answers (i : Instr) (s t : State) : Prop :=
  (∃ f, f ≠ .none ∧ f ≠ .unknownOpcode ∧ t = s.enterFault f i.opcode) ∨
  (∃ c, c ≠ .none ∧ c ≠ .endOfCode ∧ c ≠ .unknownOpcode ∧ t = s.enterHalt c i.opcode) ∨
  Completes i s t

theorem StackFault.answers {i : Instr} {s t : State} (h : StackFault i s t) : Answers i s t := by
  rcases h with h | h
  · exact .inl ⟨.stackUnderflow, by decide, by decide, h.2⟩
  · exact .inl ⟨.stackOverflow, by decide, by decide, h.2.2.2⟩

theorem halt_answers {c : HaltCode} {i : Instr} {s t : State} (h1 : c ≠ .none) (h2 : c ≠ .endOfCode)
    (h3 : c ≠ .unknownOpcode) (h : halt c i s = .next t) : Answers i s t := by
  cases h
  exact .inr (.inl ⟨c, h1, h2, h3, rfl⟩)

/-- The instruction is none of the three that store or jump. -/
abbrev Plain (i : Instr) : Prop := i ≠ .mstore ∧ i ≠ .jump ∧ i ≠ .jumpi

/-- A plain instruction that leaves memory alone, moves the cursor by its rule and advances completes. -/
theorem Completes.plain {i : Instr} {s t : State} (hi : Plain i)
    (frame : t = { s with pc := t.pc, sp := t.sp, stack := t.stack }) (cursor : (t.sp : Int) = s.sp + cursorChange i)
    (bound : s.sp ≤ s.cfg.stackDepth → t.sp ≤ s.cfg.stackDepth) (length : t.stack.length = s.stack.length)
    (imm : i.immLen = 0 ∨ s.pc + 1 + i.immLen ≤ s.codeLen)
    (pc : t.pc = s.toPc (s.pc + 1 + i.immLen)) : Completes i s t :=
  { frame := by rw [frame], cursor := cursor, bound := bound, length := length,
    memory := fun _ => by rw [frame], stored := fun e => absurd e hi.1, immediate := imm,
    nextPc := .inl ⟨pc, hi.2.1, fun e => absurd e hi.2.2⟩ }

theorem pushImmediate_answers {i : Instr} {v : Word} {s t : State} (hi : Plain i) (hg : i.grow = true)
    (hc : cursorChange i = 1) (h : pushImmediate i v s = .next t) : Answers i s t := by
  rcases pushImmediate_next h with h | ⟨_, _, h⟩ | ⟨hf, hr, rfl⟩
  · exact h.answers
  · exact .inl ⟨_, by decide, by decide, h⟩
  · exact .inr (.inr (.plain hi rfl (by simp [hc]) (fun _ => hf.2.2 hg) (by simp) (.inr hr) rfl))

theorem dupSlot_answers {i : Instr} {d : Nat} {s t : State} (hi : Plain i) (hl : i.immLen = 0) (hg : i.grow = true)
    (hc : cursorChange i = 1) (h : dupSlot i d s = .next t) : Answers i s t := by
  rcases dupSlot_next h with h | ⟨hf, rfl⟩
  · exact h.answers
  · exact .inr (.inr (.plain hi rfl (by simp [hc]) (fun _ => hf.2.2 hg) (by simp) (.inl hl) (by simp [hl])))

theorem swapSlots_answers {i : Instr} {d : Nat} {s t : State} (hi : Plain i) (hl : i.immLen = 0)
    (hc : cursorChange i = 0) (h : swapSlots i d s = .next t) : Answers i s t := by
  rcases swapSlots_next h with h | ⟨hf, rfl⟩
  · exact h.answers
  · exact .inr (.inr (.plain hi rfl (by simp [hc]) id (by simp) (.inl hl) (by simp [hl])))

theorem binary_answers {i : Instr} {f : Word → Word → Word} {s t : State} (hi : Plain i) (hl : i.immLen = 0)
    (hn : i.need = 2) (hc : cursorChange i = -1) (h : binary i f s = .next t) : Answers i s t := by
  rcases binary_next h with h | ⟨hf, rfl⟩
  · exact h.answers
  · have h2 : 2 ≤ s.sp := hn ▸ hf.2.1
    exact .inr (.inr (.plain hi rfl (by simp [hc]; omega) (by simp; omega) (by simp) (.inl hl) (by simp [hl])))

theorem unary_answers {i : Instr} {g : Word → Word} {s t : State} (hi : Plain i) (hl : i.immLen = 0)
    (hc : cursorChange i = 0) (h : unary i g s = .next t) : Answers i s t := by
  rcases unary_next h with h | ⟨hf, rfl⟩
  · exact h.answers
  · exact .inr (.inr (.plain hi rfl (by simp [hc]) id (by simp) (.inl hl) (by simp [hl])))

theorem calldatasize_answers {s t : State} (h : exec .calldatasize s = .next t) : Answers .calldatasize s t := by
  rw [exec_calldatasize] at h
  rcases checked_next h with h | ⟨hf, h⟩
  · exact h.answers
  · cases h
    exact .inr (.inr (.plain (by decide) rfl (by simp [cursorChange]) (fun _ => hf.2.2 rfl) (by simp) (.inl rfl) rfl))

theorem execMload_answers {s t : State} (h : execMload s = .next t) : Answers .mload s t := by
  rcases execMload_next h with h | ⟨_, _, h⟩ | ⟨hf, _, rfl⟩
  · exact h.answers
  · exact .inl ⟨_, by decide, by decide, h⟩
  · exact .inr (.inr (.plain (by decide) rfl (by simp [cursorChange]) id (by simp) (.inl rfl) (by simp; rfl)))

theorem execMstore_answers {s t : State} (h : execMstore s = .next t) : Answers .mstore s t := by
  rcases execMstore_next h with h | ⟨_, _, h⟩ | ⟨hf, hr, rfl⟩
  · exact h.answers
  · exact .inl ⟨_, by decide, by decide, h⟩
  · have h2 : 2 ≤ s.sp := hf.2.1
    generalize hm : storeWord s.mem _ _ = m
    exact .inr (.inr
      { frame := rfl, cursor := by simp [cursorChange]; omega, bound := by simp; omega, length := by simp,
        memory := fun e => absurd rfl e,
        stored := fun _ => ⟨(s.fromTop 1).toNat / 16, s.fromTop 2, hr, hm.symm⟩,
        immediate := .inl rfl, nextPc := .inl ⟨by simp; rfl, by decide, nofun⟩ })

theorem execJump_answers {s t : State} (h : execJump s = .next t) : Answers .jump s t := by
  rcases execJump_next h with h | ⟨_, _, h⟩ | ⟨hf, p, hp, rfl⟩
  · exact h.answers
  · exact .inl ⟨_, by decide, by decide, h⟩
  · have h1 : 1 ≤ s.sp := hf.2.1
    exact .inr (.inr
      { frame := rfl, cursor := by simp [cursorChange]; omega, bound := by simp; omega, length := by simp,
        memory := fun _ => rfl, stored := nofun, immediate := .inl rfl, nextPc := .inr ⟨.inl rfl, _, hp, rfl⟩ })

theorem execJumpi_answers {s t : State} (h : execJumpi s = .next t) : Answers .jumpi s t := by
  rcases execJumpi_next h with h | ⟨hf, hz, rfl⟩ | ⟨_, _, _, h⟩ | ⟨hf, hz, p, hp, rfl⟩
  · exact h.answers
  · have h2 : 2 ≤ s.sp := hf.2.1
    exact .inr (.inr
      { frame := rfl, cursor := by simp [cursorChange]; omega, bound := by simp; omega, length := by simp,
        memory := fun _ => rfl, stored := nofun, immediate := .inl rfl,
        nextPc := .inl ⟨by simp; rfl, by decide, fun _ => hz⟩ })
  · exact .inl ⟨_, by decide, by decide, h⟩
  · have h2 : 2 ≤ s.sp := hf.2.1
    exact .inr (.inr
      { frame := rfl, cursor := by simp [cursorChange]; omega, bound := by simp; omega, length := by simp,
        memory := fun _ => rfl, stored := nofun, immediate := .inl rfl, nextPc := .inr ⟨.inr ⟨rfl, hz⟩, _, hp, rfl⟩ })

/-- Everything an instruction can answer with. -/
theorem exec_next {i : Instr} {s t : State} (h : exec i s = .next t) : Answers i s t := by
  cases i
  case stop => exact halt_answers (by decide) (by decide) (by decide) h
  case ret => exact halt_answers (by decide) (by decide) (by decide) h
  case revert => exact halt_answers (by decide) (by decide) (by decide) h
  case invalid => exact halt_answers (by decide) (by decide) (by decide) h
  case add => exact binary_answers (by decide) rfl rfl rfl (exec_add s ▸ h)
  case mul => exact binary_answers (by decide) rfl rfl rfl (exec_mul s ▸ h)
  case sub => exact binary_answers (by decide) rfl rfl rfl (exec_sub s ▸ h)
  case div => exact binary_answers (by decide) rfl rfl rfl (exec_div s ▸ h)
  case lt => exact binary_answers (by decide) rfl rfl rfl (exec_lt s ▸ h)
  case eq => exact binary_answers (by decide) rfl rfl rfl (exec_eq s ▸ h)
  case iszero => exact unary_answers (by decide) rfl rfl (exec_iszero s ▸ h)
  case not => exact unary_answers (by decide) rfl rfl (exec_not s ▸ h)
  case calldataload => exact unary_answers (by decide) rfl rfl (exec_calldataload s ▸ h)
  case calldatasize => exact calldatasize_answers h
  case push1 imm => exact pushImmediate_answers ⟨nofun, nofun, nofun⟩ rfl rfl (exec_push1 imm s ▸ h)
  case push2 imm => exact pushImmediate_answers ⟨nofun, nofun, nofun⟩ rfl rfl (exec_push2 imm s ▸ h)
  case push4 imm => exact pushImmediate_answers ⟨nofun, nofun, nofun⟩ rfl rfl (exec_push4 imm s ▸ h)
  case push29 imm => exact pushImmediate_answers ⟨nofun, nofun, nofun⟩ rfl rfl (exec_push29 imm s ▸ h)
  case dup1 => exact dupSlot_answers (by decide) rfl rfl rfl (exec_dup1 s ▸ h)
  case dup2 => exact dupSlot_answers (by decide) rfl rfl rfl (exec_dup2 s ▸ h)
  case dup3 => exact dupSlot_answers (by decide) rfl rfl rfl (exec_dup3 s ▸ h)
  case swap1 => exact swapSlots_answers (by decide) rfl rfl (exec_swap1 s ▸ h)
  case swap2 => exact swapSlots_answers (by decide) rfl rfl (exec_swap2 s ▸ h)
  case swap3 => exact swapSlots_answers (by decide) rfl rfl (exec_swap3 s ▸ h)
  case mload => exact execMload_answers (exec_mload s ▸ h)
  case mstore => exact execMstore_answers (exec_mstore s ▸ h)
  case jump => exact execJump_answers (exec_jump s ▸ h)
  case jumpi => exact execJumpi_answers (exec_jumpi s ▸ h)
  case jumpdest =>
    rw [exec_jumpdest] at h
    cases h
    exact .inr (.inr (.plain (by decide) rfl (by simp [cursorChange]) id rfl (.inl rfl) rfl))

/-- The stack checks answer a next state whenever the instruction's own rule does. -/
theorem checked_answers {i : Instr} {s : State} {body : Result} (hs : s.Shaped) (hb : ∃ t, body = .next t) :
    ∃ t, checked i s body = .next t := by
  by_cases hn : s.sp < i.need
  · exact ⟨_, checked_of_underflow hn⟩
  · by_cases hg : i.grow = true ∧ s.sp = s.cfg.stackDepth
    · exact ⟨_, checked_of_overflow (Nat.not_lt.1 hn) hg.1 hg.2⟩
    · rw [checked_of_ok hs (Nat.not_lt.1 hn)]
      · exact hb
      · intro h
        have h1 := hs.2
        have h2 : s.sp ≠ s.cfg.stackDepth := fun e => hg ⟨h, e⟩
        omega

theorem pushImmediate_some (i : Instr) (v : Word) {s : State} (hs : s.Shaped) :
    ∃ t, pushImmediate i v s = .next t := by
  apply checked_answers hs
  split
  · exact ⟨_, rfl⟩
  · exact ⟨_, rfl⟩

theorem jumpTo_some (i : Instr) (dest : Word) (n : Nat) (s : State) : ∃ t, jumpTo i dest n s = .next t := by
  unfold jumpTo
  split
  · exact ⟨_, rfl⟩
  · exact ⟨_, rfl⟩

/-- On slots that exist, every instruction answers a next state. -/
theorem exec_answers (i : Instr) {s : State} (hs : s.Shaped) : ∃ t, exec i s = .next t := by
  cases i
  case stop => exact ⟨_, rfl⟩
  case ret => exact ⟨_, rfl⟩
  case revert => exact ⟨_, rfl⟩
  case invalid => exact ⟨_, rfl⟩
  case jumpdest => exact ⟨_, rfl⟩
  case push1 imm => exact pushImmediate_some (.push1 imm) (zext256 imm) hs
  case push2 imm => exact pushImmediate_some (.push2 imm) (zext256 imm) hs
  case push4 imm => exact pushImmediate_some (.push4 imm) (zext256 imm) hs
  case push29 imm => exact pushImmediate_some (.push29 imm) (zext256 imm) hs
  case calldatasize =>
    rw [exec_calldatasize]
    exact checked_answers hs ⟨_, rfl⟩
  case jump => exact checked_answers hs (jumpTo_some ..)
  case jumpi =>
    apply checked_answers hs
    split
    · exact jumpTo_some ..
    · exact ⟨_, rfl⟩
  case mstore =>
    apply checked_answers hs
    split
    · exact ⟨_, rfl⟩
    · exact ⟨_, rfl⟩
  case mload =>
    apply checked_answers hs
    split
    · exact ⟨_, rfl⟩
    · exact ⟨_, rfl⟩
  all_goals exact checked_answers hs ⟨_, rfl⟩

/-! ### `step` -/

/-- What a running step does, by what the fetch finds. -/
theorem step_running {s : State} (h : s.status = .running) :
    step s = match s.fetch with
      | .empty => endOfCode s
      | .unknown op => unknownOpcode op (s.emit op)
      | .truncated i => exec i (s.emit i.opcode)
      | .instr i _ => exec i (s.emit i.opcode) := by
  unfold step
  rw [h]
  all_goals rfl

theorem step_ended {s : State} (h : s.status ≠ .running) : step s = .next s := by
  unfold step
  cases hs : s.status
  · exact absurd hs h
  · rfl
  · rfl

/-- Everything a running step can do: the end-of-code halt, an unknown opcode, or the rule of the instruction
whose opcode stands at the program counter (an instruction cut short is a PUSH's). -/
theorem step_cases {s t : State} (hr : s.status = .running) (h : step s = .next t) :
    (s.codeLen ≤ s.pc ∧ t = s.enterHalt .endOfCode 0) ∨
    (∃ op, s.code[s.pc]? = some op ∧ decodeOp s.cfg op = none ∧
      ((s.cfg.strictUnknown = false ∧ t = (s.emit op).enterHalt .unknownOpcode op) ∨
       (s.cfg.strictUnknown = true ∧ t = (s.emit op).enterFault .unknownOpcode op))) ∨
    (∃ i, s.code[s.pc]? = some i.opcode ∧ i.wellFormed s.cfg = true ∧
      (s.fetch = .truncated i ∧ s.codeLen < s.pc + 1 + i.immLen ∨
        ∃ rest, s.fetch = .instr i rest ∧ s.pc + 1 + i.immLen ≤ s.codeLen) ∧
      exec i (s.emit i.opcode) = .next t) := by
  rw [step_running hr] at h
  by_cases hp : s.codeLen ≤ s.pc
  · rw [s.fetch_past hp] at h
    cases h
    exact .inl ⟨hp, rfl⟩
  · have hp' : s.pc < s.codeLen := Nat.not_le.1 hp
    have hop : s.code[s.pc]? = some (s.code[s.pc]'hp') := List.getElem?_eq_getElem hp'
    generalize s.code[s.pc]'hp' = op at hop
    obtain ⟨_, hdrop⟩ := s.code_drop hop
    have hfetch : s.fetch = decode s.cfg (op :: s.code.drop (s.pc + 1)) := by rw [s.fetch_inside hp', hdrop]
    have hlen : (s.code.drop (s.pc + 1)).length = s.codeLen - (s.pc + 1) := by simp [State.codeLen]
    rcases decode_cons s.cfg op (s.code.drop (s.pc + 1)) with ⟨hn, hd⟩ | ⟨i, hi, hl, hd⟩ | ⟨i, hi, hl, hd⟩
    · rw [hfetch, hd] at h
      refine .inr (.inl ⟨op, hop, hn, ?_⟩)
      simp only [unknownOpcode, State.emit_cfg] at h
      split at h <;> cases h
      · exact .inr ⟨‹_›, rfl⟩
      · exact .inl ⟨Bool.not_eq_true _ ▸ ‹¬ _›, rfl⟩
    · rw [hfetch, hd] at h
      obtain ⟨_, h2, h3⟩ := decodeOp_eq_some.1 hi
      exact .inr (.inr ⟨i, by rw [hop, h2], h3, .inl ⟨by rw [hfetch, hd], by omega⟩, h⟩)
    · rw [hfetch, hd] at h
      obtain ⟨_, h2, h3⟩ := decodeOp_eq_some.1 hi
      exact .inr (.inr ⟨_, by rw [hop, Instr.withImm_opcode, h2], by simpa using h3,
        .inr ⟨_, by rw [hfetch, hd], by rw [Instr.withImm_immLen]; omega⟩, h⟩)

end Sys2Proof.Machine
end

