-- ==== Sys2Proof/Laws/PerInstr.lean ====
section
/-! SUPPORT. Statements made of every instruction, a lemma for each constructor. -/

namespace Sys2Proof.Laws.EncodingLength

/-- The encoding begins with the opcode and is as long as 30_encoding.md R72 says: one byte, or N + 1 for a PUSH. -/
def Statement (i : Instr) : Prop := (encode i).head? = some i.opcode ∧ (encode i).length = 1 + i.immLen

theorem stop : Statement .stop := ⟨rfl, rfl⟩
theorem add : Statement .add := ⟨rfl, rfl⟩
theorem mul : Statement .mul := ⟨rfl, rfl⟩
theorem sub : Statement .sub := ⟨rfl, rfl⟩
theorem div : Statement .div := ⟨rfl, rfl⟩
theorem lt : Statement .lt := ⟨rfl, rfl⟩
theorem eq : Statement .eq := ⟨rfl, rfl⟩
theorem iszero : Statement .iszero := ⟨rfl, rfl⟩
theorem not : Statement .not := ⟨rfl, rfl⟩
theorem calldataload : Statement .calldataload := ⟨rfl, rfl⟩
theorem calldatasize : Statement .calldatasize := ⟨rfl, rfl⟩
theorem mload : Statement .mload := ⟨rfl, rfl⟩
theorem mstore : Statement .mstore := ⟨rfl, rfl⟩
theorem jump : Statement .jump := ⟨rfl, rfl⟩
theorem jumpi : Statement .jumpi := ⟨rfl, rfl⟩
theorem jumpdest : Statement .jumpdest := ⟨rfl, rfl⟩
theorem push1 (imm : BitVec 8) : Statement (.push1 imm) := ⟨rfl, rfl⟩
theorem push2 (imm : BitVec 16) : Statement (.push2 imm) := ⟨rfl, rfl⟩
theorem push4 (imm : BitVec 32) : Statement (.push4 imm) := ⟨rfl, rfl⟩
theorem push29 (imm : BitVec 232) : Statement (.push29 imm) := ⟨rfl, rfl⟩
theorem dup1 : Statement .dup1 := ⟨rfl, rfl⟩
theorem dup2 : Statement .dup2 := ⟨rfl, rfl⟩
theorem dup3 : Statement .dup3 := ⟨rfl, rfl⟩
theorem swap1 : Statement .swap1 := ⟨rfl, rfl⟩
theorem swap2 : Statement .swap2 := ⟨rfl, rfl⟩
theorem swap3 : Statement .swap3 := ⟨rfl, rfl⟩
theorem ret : Statement .ret := ⟨rfl, rfl⟩
theorem revert : Statement .revert := ⟨rfl, rfl⟩
theorem invalid : Statement .invalid := ⟨rfl, rfl⟩

end Sys2Proof.Laws.EncodingLength
end

