-- ==== Sys2Proof/Tests/Slice0.lean ====
section
/-! SUPPORT. The model's own tests. Expected results are those of spec/95_test_vectors.md (its vector is named in
each test's comment) or of an example in the instruction's rule; the second half shows, for each obligation that
has hypotheses, a state and operands that meet them. -/

namespace Sys2Proof.Tests

open Sys2Proof Sys2Proof.Machine

/-! ### Helpers -/

/-- A small configuration: four slots, three cells. -/
def cfg4 : Config := { Config.thisHardware with stackDepth := 4, memCells := 3 }

/-- A run on `code` at address 0 with the live slots `live` (top last) and call data `01 02 03`. -/
def st (code : List Byte) (live : List Word) : State :=
  { State.boot cfg4 code [0x01, 0x02, 0x03] with
    stack := live ++ List.replicate (4 - live.length) 0, sp := live.length }

/-- The same with this hardware's 100 slots and 100 cells. -/
def st100 (code : List Byte) (live : List Word) : State :=
  { State.boot Config.thisHardware code [] with
    stack := live ++ List.replicate (100 - live.length) 0, sp := live.length }

/-- The value of the spec's MAX. -/
def maxWord : Word := BitVec.ofNat 256 (2 ^ 256 - 1)

/-- The outcome is a next state with the property. -/
def answers (o : Result) (p : State → Bool) : Bool :=
  match o with
  | .next t => p t
  | .fault _ => false
  | .refused _ => false

/-- One step leaves the run going at `pc` with the live slots `live`. -/
def goesOn (s : State) (pc : Nat) (live : List Word) : Bool :=
  answers (step s) fun t => t.status == .running && t.pc == pc && t.sp == live.length && t.stack.take t.sp == live

/-- One step faults with the code, at the opcode, and changes neither stack nor memory. -/
def faultsAs (s : State) (f : FaultCode) (op : Byte) : Bool :=
  answers (step s) fun t => t.status == .faulted && t.faultCode == f && t.endPc == s.pc && t.endOpcode == op &&
    t.pc == s.pc && t.sp == s.sp && t.stack == s.stack && t.mem == s.mem

/-- One step halts with the code, at the opcode, with `pc` at the end of the code and the stack as it was. -/
def haltsAs (s : State) (h : HaltCode) (op : Byte) : Bool :=
  answers (step s) fun t => t.status == .halted && t.haltCode == h && t.endPc == s.pc && t.endOpcode == op &&
    t.pc == s.codeLen && t.sp == s.sp && t.stack == s.stack

/-! ### WellFormed refuses -/

theorem test_wf_not_without_has_not : Instr.not.wellFormed { cfg4 with hasNot := false } = false := by decide
theorem test_wf_jump_without_has_jump : Instr.jump.wellFormed { cfg4 with hasJump := false } = false := by decide
theorem test_wf_mload_in_unknown_mode : Instr.mload.wellFormed { cfg4 with mloadMode := .unknown } = false := by decide
theorem test_wf_memory_refuses_listed_default : Memory.wf [(3, 0)] = false := by decide
theorem test_wf_memory_refuses_falling_addresses : Memory.wf [(4, 1), (3, 1)] = false := by decide
theorem test_wf_memory_refuses_repeat : Memory.wf [(3, 1), (3, 2)] = false := by decide
theorem test_wf_config_refuses_byte_past_memory : Config.wf { cfg4 with memInit := [(48, 1)] } = false := by decide
theorem test_wf_config_refuses_code_longer_than_pc : Config.wf { cfg4 with maxCodeLen := 2 ^ 32 } = false := by decide
theorem test_wf_config_refuses_call_data_longer_than_slot : Config.wf { cfg4 with maxCalldataLen := 2 ^ 256 } = false := by
  decide
theorem test_wf_config_accepts_narrow_pc : Config.wf { cfg4 with pcWidth := 8, maxCodeLen := 255 } = true := by decide
theorem test_wf_config_accepts_last_byte : Config.wf { cfg4 with memInit := [(47, 1)] } = true := by decide

/-! ### Decoding: each opcode byte as 30_encoding.md R75 writes it -/

theorem test_decode_halts :
    [0x00, 0xF3, 0xFD, 0xFE].map (fun b => decode cfg4 [b]) =
      [.instr .stop [], .instr .ret [], .instr .revert [], .instr .invalid []] := by decide
theorem test_decode_binary :
    [0x01, 0x02, 0x03, 0x04, 0x10, 0x14].map (fun b => decode cfg4 [b]) =
      [.instr .add [], .instr .mul [], .instr .sub [], .instr .div [], .instr .lt [], .instr .eq []] := by decide
theorem test_decode_unary : [0x15, 0x19].map (fun b => decode cfg4 [b]) = [.instr .iszero [], .instr .not []] := by decide
theorem test_decode_calldata :
    [0x35, 0x36].map (fun b => decode cfg4 [b]) = [.instr .calldataload [], .instr .calldatasize []] := by decide
theorem test_decode_memory : [0x51, 0x52].map (fun b => decode cfg4 [b]) = [.instr .mload [], .instr .mstore []] := by decide
theorem test_decode_control :
    [0x56, 0x57, 0x5B].map (fun b => decode cfg4 [b]) = [.instr .jump [], .instr .jumpi [], .instr .jumpdest []] := by decide
theorem test_decode_dup :
    [0x80, 0x81, 0x82].map (fun b => decode cfg4 [b]) = [.instr .dup1 [], .instr .dup2 [], .instr .dup3 []] := by decide
theorem test_decode_swap :
    [0x90, 0x91, 0x92].map (fun b => decode cfg4 [b]) = [.instr .swap1 [], .instr .swap2 [], .instr .swap3 []] := by decide
/-- Vector P-1, with a byte after it. -/
theorem test_decode_push1 : decode cfg4 [0x60, 0x07, 0xAB] = .instr (.push1 0x07) [0xAB] := by decide
/-- Vector P-2. -/
theorem test_decode_push2 : decode cfg4 [0x61, 0x12, 0x34] = .instr (.push2 0x1234) [] := by decide
/-- Vector P-3. -/
theorem test_decode_push4 : decode cfg4 [0x63, 0xDE, 0xAD, 0xBE, 0xEF] = .instr (.push4 0xDEADBEEF) [] := by decide
/-- Vector P-4. -/
theorem test_decode_push29 :
    decode cfg4 (0x7C :: (List.range 29).map (fun k => BitVec.ofNat 8 (k + 1))) =
      .instr (.push29 0x0102030405060708090A0B0C0D0E0F101112131415161718191A1B1C1D) [] := by decide
/-- Vectors H-5, H-6, L1.7: POP, PUSH3 and 0xAB are not implemented. -/
theorem test_decode_unknown :
    [0x50, 0x62, 0xAB].map (fun b => decode cfg4 [b]) = [.unknown 0x50, .unknown 0x62, .unknown 0xAB] := by decide
/-- Vector P-6. -/
theorem test_decode_truncated : decode cfg4 [0x7C, 0x01, 0x02] = .truncated (.push29 0) := by decide
theorem test_encode_push4 : encode (.push4 0xDEADBEEF) = [0x63, 0xDE, 0xAD, 0xBE, 0xEF] := by decide

/-! ### The host's view of a word -/

theorem test_table_word_push1 : decodeTableWord 16 0x0560 = some (.push1 0x05) := by decide
theorem test_table_word_push29_opcode_only : decodeTableWord 8 0x7C = some (.push29 0) := by decide
theorem test_table_word_unknown : decodeTableWord 8 0xAB = none := by decide
theorem test_fetch_word_runs : goesOn (State.reset.withFetchWord 16 0x0560) 2 [0x05] = true := by decide

/-! ### One step of each instruction -/

/-- Vector H-1. -/
theorem test_stop : haltsAs (st [0x00] []) .stop 0x00 = true := by decide
/-- Vector A-1. -/
theorem test_add : goesOn (st [0x01] [5, 7]) 1 [0x0C] = true := by decide
/-- Vector A-2. -/
theorem test_add_wraps : goesOn (st [0x01] [1, maxWord]) 1 [0] = true := by decide
/-- Vector A-3. -/
theorem test_mul_wraps : goesOn (st [0x02] [2, maxWord - 1]) 1 [maxWord - 3] = true := by decide
/-- 43_arithmetic.md R142, corner case. -/
theorem test_mul_high_half_lost : goesOn (st [0x02] [1 <<< 128, 1 <<< 128]) 1 [0] = true := by decide
/-- Vector A-4. -/
theorem test_sub_order : goesOn (st [0x03] [3, 10]) 1 [7] = true := by decide
/-- Vector A-5. -/
theorem test_sub_wraps : goesOn (st [0x03] [2, 1]) 1 [maxWord] = true := by decide
/-- Vector A-6. -/
theorem test_div_floor : goesOn (st [0x04] [3, 10]) 1 [3] = true := by decide
/-- Vector A-7. -/
theorem test_div_by_zero : goesOn (st [0x04] [0, 7]) 1 [0] = true := by decide
/-- Vector A-10. -/
theorem test_lt_order : goesOn (st [0x10] [5, 3]) 1 [1] = true := by decide
/-- Vector A-12. -/
theorem test_lt_unsigned : goesOn (st [0x10] [1, maxWord]) 1 [0] = true := by decide
/-- Vector L1.3. -/
theorem test_eq_equal : goesOn (st [0x14] [5, 5]) 1 [1] = true := by decide
/-- 43_arithmetic.md R146, corner case: a difference in byte 0 only. -/
theorem test_eq_all_bytes : goesOn (st [0x14] [1 <<< 255, 0]) 1 [0] = true := by decide
/-- Vector A-15. -/
theorem test_iszero_zero : goesOn (st [0x15] [0]) 1 [1] = true := by decide
/-- 43_arithmetic.md R148, corner case. -/
theorem test_iszero_top_bit : goesOn (st [0x15] [1 <<< 255]) 1 [0] = true := by decide
/-- 43_arithmetic.md R149, example. -/
theorem test_not : goesOn (st [0x19] [0x0F]) 1 [maxWord - 0x0F] = true := by decide
/-- Vector A-19. -/
theorem test_not_absent :
    haltsAs { st [0x19] [0] with cfg := { cfg4 with hasNot := false } } .unknownOpcode 0x19 = true := by decide
/-- Vector K-3. -/
theorem test_calldataload : goesOn (st [0x35] [1]) 1 [0x0203 <<< 240] = true := by decide
/-- 46_calldata.md R181, corner case: the largest offset does not wrap. -/
theorem test_calldataload_no_wrap : goesOn (st [0x35] [maxWord]) 1 [0] = true := by decide
/-- Vector K-1. -/
theorem test_calldatasize : goesOn (st [0x36] []) 1 [3] = true := by decide
/-- Vector K-8, on four slots. -/
theorem test_calldatasize_full : faultsAs (st [0x36] [0, 0, 0, 0]) .stackOverflow 0x36 = true := by decide
/-- Vector M-5: cell 5 byte 15 is flat byte 95. -/
theorem test_mload : goesOn { st100 [0x51] [0x40] with mem := [(94, 0x12), (95, 0x34)] } 1 [0x34] = true := by decide
/-- Vector M-10. -/
theorem test_mload_out_of_range : faultsAs (st100 [0x51] [0x630]) .memoryOutOfRange 0x51 = true := by decide
/-- Vector M-2: the last legal id; cell 99 byte 15 is flat byte 1599. -/
theorem test_mstore_last_id :
    answers (step (st100 [0x52] [0xAA, 0x62F])) (fun t => t.mem == [(1599, 0xAA)] && t.sp == 0) = true := by decide
/-- Vector M-3. -/
theorem test_mstore_out_of_range : faultsAs (st100 [0x52] [0xAA, 0x630]) .memoryOutOfRange 0x52 = true := by decide
/-- Vector J-1, the JUMP. -/
theorem test_jump : goesOn { st [0x60, 0x04, 0x56, 0xFE, 0x00] [4] with pc := 2 } 4 [] = true := by decide
/-- Vector J-2, the JUMP. -/
theorem test_jump_out_of_bounds :
    faultsAs { st [0x60, 0xFF, 0x56] [0xFF] with pc := 2 } .invalidJumpTarget 0x56 = true := by decide
/-- Vector J-13, the JUMPI: any nonzero condition is taken. -/
theorem test_jumpi_taken : goesOn (st [0x57, 0, 0, 0, 0, 0, 0] [maxWord, 6]) 6 [] = true := by decide
/-- 45_control.md R170, corner case: condition 0 checks no destination. -/
theorem test_jumpi_not_taken : goesOn (st [0x57] [0, maxWord]) 1 [] = true := by decide
/-- Vector S3. -/
theorem test_jumpdest : goesOn (st [0x5B, 0x5B] [9]) 1 [9] = true := by decide
/-- Vector P-1. -/
theorem test_push1_at_the_end : goesOn (st [0x60, 0x07] []) 2 [0x07] = true := by decide
/-- Vector P-5. -/
theorem test_push1_truncated : faultsAs (st [0x60] []) .immediateOutOfRange 0x60 = true := by decide
/-- Vector P-2. -/
theorem test_push2 : goesOn (st [0x61, 0x12, 0x34] []) 3 [0x1234] = true := by decide
/-- Vector P-8, on four slots: overflow is checked first. -/
theorem test_push2_overflow_first : faultsAs (st [0x61] [0, 0, 0, 0]) .stackOverflow 0x61 = true := by decide
/-- 41_push.md R124, corner case: no sign extension. -/
theorem test_push4 : goesOn (st [0x63, 0xFF, 0xFF, 0xFF, 0xFF] []) 5 [0xFFFFFFFF] = true := by decide
/-- 41_push.md R125, example. -/
theorem test_push29 : goesOn (st (0x7C :: List.replicate 28 0x00 ++ [0x2A]) []) 30 [0x2A] = true := by decide
/-- Vector D-1. -/
theorem test_dup1 : goesOn (st [0x80] [7]) 1 [7, 7] = true := by decide
/-- Vector D-6, on four slots. -/
theorem test_dup1_full : faultsAs (st [0x80] [0, 0, 0, 0]) .stackOverflow 0x80 = true := by decide
/-- Vector D-2. -/
theorem test_dup2 : goesOn (st [0x81] [1, 2]) 1 [1, 2, 1] = true := by decide
/-- Vector D-3. -/
theorem test_dup3 : goesOn (st [0x82] [1, 2, 3]) 1 [1, 2, 3, 1] = true := by decide
/-- Vector D-5. -/
theorem test_dup3_underflow : faultsAs (st [0x82] [1, 2]) .stackUnderflow 0x82 = true := by decide
/-- Vector W-1. -/
theorem test_swap1 : goesOn (st [0x90] [1, 2]) 1 [2, 1] = true := by decide
/-- Vector W-6, on four slots: no overflow. -/
theorem test_swap1_full : goesOn (st [0x90] [0, 0, 1, 2]) 1 [0, 0, 2, 1] = true := by decide
/-- Vector W-2. -/
theorem test_swap2 : goesOn (st [0x91] [1, 2, 3]) 1 [3, 2, 1] = true := by decide
/-- Vector W-3. -/
theorem test_swap3 : goesOn (st [0x92] [1, 2, 3, 4]) 1 [4, 2, 3, 1] = true := by decide
/-- Vector W-5. -/
theorem test_swap3_underflow : faultsAs (st [0x92] [1, 2, 3]) .stackUnderflow 0x92 = true := by decide
/-- Vector H-2, the RETURN. -/
theorem test_return : haltsAs { st [0x60, 0x2A, 0xF3] [0x2A] with pc := 2 } .ret 0xF3 = true := by decide
/-- Vector H-3. -/
theorem test_revert : haltsAs (st [0xFD] []) .revert 0xFD = true := by decide
/-- 47_halt.md R194: not a fault under STRICT_UNKNOWN either. -/
theorem test_invalid_strict :
    haltsAs { st [0xFE] [1] with cfg := { cfg4 with strictUnknown := true } } .invalid 0xFE = true := by decide

/-! ### The step itself and the configuration -/

/-- Vector S1. -/
theorem test_empty_code_halts : haltsAs (st [] []) .endOfCode 0 = true := by decide
/-- Vector L1.7. -/
theorem test_unknown_halts : haltsAs (st [0xAB, 0x60, 0x02] [1]) .unknownOpcode 0xAB = true := by decide
/-- Vector L1.7 with STRICT_UNKNOWN. -/
theorem test_unknown_strict_faults :
    faultsAs { st [0xAB] [1] with cfg := { cfg4 with strictUnknown := true } } .unknownOpcode 0xAB = true := by decide
/-- Vector J-3: the target past the end becomes CODE_LEN. -/
theorem test_halt_outside :
    goesOn { st [0x56, 0, 0] [0xFF] with cfg := { cfg4 with jumpCheck := .haltOutside } } 3 [] = true := by decide
/-- Vector J-8. -/
theorem test_jumpdest_check :
    faultsAs { st [0x56, 0, 0, 0xFE, 0x00] [4] with cfg := { cfg4 with jumpdestCheck := true } }
      .invalidJumpTarget 0x56 = true := by decide
/-- 10_state.md R21, R22 with PC_WIDTH = 2: the last byte of a code of 3 bytes is stepped over. -/
theorem test_narrow_program_counter :
    goesOn { st [0x00, 0x00, 0x5B] [] with pc := 2, cfg := { cfg4 with pcWidth := 2, maxCodeLen := 3 } } 3 [] = true := by
  decide
/-- Vector M-6. -/
theorem test_mload_byte_index :
    goesOn { st100 [0x51] [0x40] with
      mem := [(94, 0x12), (95, 0x34)], cfg := { Config.thisHardware with mloadByteIndex := 0 } } 1 [0] = true := by decide
/-- 10_state.md R46: the trace event of a fetch. -/
theorem test_trace_event :
    answers (step { st [0x5B] [] with cfg := { cfg4 with traceEnable := true } })
      (fun t => t.trace == [⟨0, 0x5B⟩]) = true := by decide

/-! ### Witnesses: the hypotheses of the obligations can be met -/

theorem test_witness_DecodeOfEncode : (Instr.push29 1).wellFormed cfg4 = true ∧ Instr.mload.wellFormed cfg4 = true := by
  decide
theorem test_witness_EncodeOfDecode : decode cfg4 [0x61, 0x12, 0x34, 0x00] = .instr (.push2 0x1234) [0x00] := by decide
/-- The longest immediate one byte short, and whole. -/
theorem test_witness_OnlyPushIsCutShort :
    decode cfg4 (0x7C :: List.replicate 28 0) = .truncated (.push29 0) ∧ (0x7C, 29) ∈ pushWidths ∧
    decode cfg4 (0x7C :: List.replicate 29 0) = .instr (.push29 0) [] := by decide
theorem test_witness_EndedRunStaysEnded : State.status { st [] [] with status := .halted } ≠ .running := by decide
/-- The boundary `pc = CODE_LEN`. -/
theorem test_witness_EndOfCodeHalts :
    State.status { st [0x00] [] with pc := 1 } = .running ∧ State.codeLen { st [0x00] [] with pc := 1 } = 1 := by decide
theorem test_witness_StepRunsTheDecodedInstruction :
    (st [0x60, 0x07] []).status = .running ∧ decode cfg4 ((st [0x60, 0x07] []).code.drop 0) = .instr (.push1 7) [] := by
  decide
/-- Both settings of STRICT_UNKNOWN, and a byte unknown by configuration only. -/
theorem test_witness_UnknownOpcodeEndsTheRun :
    (st [0xAB] []).status = .running ∧ (st [0xAB] []).code[0]? = some 0xAB ∧ ¬ Recognised cfg4 0xAB ∧
    cfg4.strictUnknown = false ∧ ¬ Recognised { cfg4 with strictUnknown := true } 0xAB ∧
    ¬ Recognised { cfg4 with mloadMode := .unknown } 0x51 ∧ Recognised cfg4 0x51 := by decide
/-- A full stack; an immediate one byte short; an immediate that ends at CODE_LEN. -/
theorem test_witness_PushPlacesImmediateBytes :
    (0x61, 2) ∈ pushWidths ∧ (st [0x61, 1, 2] [0, 0, 0, 0]).Shaped ∧ (st [0x61, 1, 2] [0, 0, 0, 0]).sp = 4 ∧
    (st [0x61, 1] [0, 0, 0]).Shaped ∧ (st [0x61, 1] [0, 0, 0]).sp < 4 ∧ (st [0x61, 1] []).codeLen < 0 + 1 + 2 ∧
    (st [0x61, 1, 2] [0, 0, 0]).Shaped ∧ 0 + 1 + 2 = (st [0x61, 1, 2] [0, 0, 0]).codeLen := by decide
/-- One slot is too few, two are enough. -/
theorem test_witness_AddMulSubModulo :
    (st [0x01] [1]).sp < 2 ∧ (st [0x01] [1, 2]).Shaped ∧ 2 ≤ (st [0x01] [1, 2]).sp := by decide
theorem test_witness_DivFloorZeroByZero :
    (st [0x04] [1]).sp < 2 ∧ (st [0x04] [0, 2]).Shaped ∧ 2 ≤ (st [0x04] [0, 2]).sp := by decide
theorem test_witness_LtEqLeaveZeroOrOne :
    (st [0x10] [1]).sp < 2 ∧ (st [0x10] [2, 2]).Shaped ∧ 2 ≤ (st [0x10] [2, 2]).sp := by decide
theorem test_witness_IszeroInPlace : (st [0x15] []).sp = 0 ∧ (st [0x15] [0]).Shaped ∧ 1 ≤ (st [0x15] [0]).sp := by decide
theorem test_witness_NotComplementsInPlace :
    (st [0x19] []).cfg.hasNot = true ∧ (st [0x19] []).sp = 0 ∧ (st [0x19] [0]).Shaped ∧ 1 ≤ (st [0x19] [0]).sp ∧
    Config.hasNot { cfg4 with hasNot := false } = false := by decide
theorem test_witness_PushPushesImmediate :
    (st [0x60, 1] [0, 0, 0, 0]).sp = (st [0x60, 1] [0, 0, 0, 0]).cfg.stackDepth ∧
    (st [0x60] [0, 0, 0]).Shaped ∧ (st [0x60] [0, 0, 0]).sp < 4 ∧ (st [0x60] [0, 0, 0]).codeLen < 0 + 1 + 1 ∧
    (st [0x60, 1] [0, 0, 0]).Shaped ∧ 0 + 1 + 1 ≤ (st [0x60, 1] [0, 0, 0]).codeLen := by decide
/-- Too few slots; a full stack; just enough slots. -/
theorem test_witness_DupCopiesSlot :
    (st [0x82] [1, 2]).sp < 3 ∧ 3 ≤ (st [0x82] [1, 2, 3, 4]).sp ∧ (st [0x82] [1, 2, 3, 4]).sp = 4 ∧
    (st [0x82] [1, 2, 3]).Shaped ∧ 3 ≤ (st [0x82] [1, 2, 3]).sp ∧ (st [0x82] [1, 2, 3]).sp < 4 := by decide
theorem test_witness_SwapExchangesSlots :
    (st [0x92] [1, 2, 3]).sp < 3 + 1 ∧ (st [0x92] [1, 2, 3, 4]).Shaped ∧ 3 + 1 ≤ (st [0x92] [1, 2, 3, 4]).sp := by decide
/-- Ids 1583 and 1584 of a memory of 100 cells. -/
theorem test_witness_MstoreWritesTwoCells :
    (st [0x52] [1]).sp < 2 ∧ (st100 [0x52] [1, 1584]).Shaped ∧
    100 ≤ ((st100 [0x52] [1, 1584]).slot 1).toNat / 16 + 1 ∧
    (st100 [0x52] [1, 1583]).Shaped ∧ (st100 [0x52] [1, 1583]).mem.wf = true ∧
    ((st100 [0x52] [1, 1583]).slot 1).toNat / 16 + 1 < 100 := by decide
theorem test_witness_MloadReadsOneByte :
    (st [0x51] []).cfg.mloadMode = .placeholder ∧ (st100 [0x51] [1583]).cfg.mloadMode = .placeholder ∧
    (st [0x51] []).sp = 0 ∧ (st100 [0x51] [1584]).Shaped ∧ 100 ≤ ((st100 [0x51] [1584]).slot 0).toNat / 16 + 1 ∧
    (st100 [0x51] [1583]).Shaped ∧ ((st100 [0x51] [1583]).slot 0).toNat / 16 + 1 < 100 := by decide
/-- The destinations CODE_LEN - 1 and CODE_LEN, under each JUMP_CHECK, and a byte that is no marker. -/
theorem test_witness_JumpiTakenIffNonzero :
    (st [0x57] [1]).sp < 2 ∧ (st [0x57] [0, 9]).Shaped ∧ (st [0x57] [0, 9]).slot 0 = 0 ∧
    (st [0x57] [1, 1]).Shaped ∧ (st [0x57] [1, 1]).slot 0 ≠ 0 ∧
    TargetRejected (st [0x57] [1, 1]) 1 ∧ ¬ TargetRejected (st [0x57] [1, 0]) 0 ∧
    ¬ TargetRejected { st [0x57] [1, 1] with cfg := { cfg4 with jumpCheck := .haltOutside } } 1 ∧
    TargetRejected { st [0x57] [1, 0] with cfg := { cfg4 with jumpdestCheck := true } } 0 := by decide
theorem test_witness_JumpGoesToTarget :
    (st [0x56] []).sp = 0 ∧ (st [0x56] [1]).Shaped ∧ 1 ≤ (st [0x56] [1]).sp ∧
    (st [0x56] [1]).cfg.hasJump = true ∧ TargetRejected (st [0x56] [1]) 1 ∧ ¬ TargetRejected (st [0x56] [0]) 0 ∧
    ¬ TargetRejected { st [0x56] [1] with cfg := { cfg4 with jumpCheck := .haltOutside } } 1 := by decide
theorem test_witness_CalldataloadZeroFills :
    (st [0x35] []).sp = 0 ∧ (st [0x35] [2]).Shaped ∧ 1 ≤ (st [0x35] [2]).sp ∧
    ((st [0x35] [2]).slot 0).toNat + 0 < (st [0x35] [2]).calldata.length ∧
    ¬ ((st [0x35] [2]).slot 0).toNat + 1 < (st [0x35] [2]).calldata.length := by decide
theorem test_witness_CalldatasizePushesLength :
    (st [0x36] [0, 0, 0, 0]).sp = 4 ∧ (st [0x36] [0, 0, 0]).Shaped ∧ (st [0x36] [0, 0, 0]).sp < 4 ∧
    (st [0x36] [0, 0, 0]).calldata.length < 2 ^ 256 := by decide
theorem test_witness_InvariantAtReset : inputsInRange { cfg4 with memInit := [(47, 1)] } [0x00] [0x01] = true := by decide
/-- A running state, not the reset state, that meets the invariant. -/
theorem test_witness_inv : (st [0x01] [5, 7]).Inv :=
  ⟨by decide, by decide, by decide, by decide, ⟨rfl, rfl, rfl, rfl, by decide⟩⟩
/-- A faulted state that meets the invariant. -/
theorem test_witness_inv_faulted :
    State.Inv { st [0x01] [5] with status := .faulted, faultCode := .stackUnderflow, endOpcode := 0x01 } :=
  ⟨by decide, by decide, by decide, by decide, ⟨by decide, rfl, rfl, rfl, nofun⟩⟩
theorem test_witness_StepKeepsInvariant :
    (st [0x01] [5, 7]).Inv ∧ answers (step (st [0x01] [5, 7])) (fun _ => true) = true :=
  ⟨test_witness_inv, by decide⟩
theorem test_witness_RunsNeverStopTheModel : (st [0x01] [5, 7]).Inv ∧ Reachable (State.boot cfg4 [0x01] []) :=
  ⟨test_witness_inv, .boot _ _ _ (by decide)⟩
theorem test_witness_ResultOutputsSayHowTheRunEnded : (st [0x01] [5, 7]).Inv := test_witness_inv
/-- The conclusion of a step in these statements is a next state. -/
theorem test_witness_InputsAreNeverWritten : answers (step (st [0x52] [1, 0])) (fun _ => true) = true := by decide
theorem test_witness_TracePortEvents :
    (st [0x52] [1, 0]).status = .running ∧ answers (step (st [0x52] [1, 0])) (fun _ => true) = true := by decide
theorem test_witness_OnlyMstoreWritesMemory : answers (exec .add (st [0x01] [5, 7])) (fun _ => true) = true := by decide
theorem test_witness_OthersIgnoreMemory :
    answers (exec .jumpi (st [0x57] [5, 0])) (fun t => t.status == .running) = true := by decide
/-- One instruction that goes on, one that ends the run. -/
theorem test_witness_CursorMovesByRule :
    answers (exec .mstore (st [0x52] [1, 0])) (fun t => t.status == .running) = true ∧
    answers (exec .ret (st [0xF3] [1])) (fun t => t.status != .running) = true := by decide
/-- A halt, a fault, a PUSH, a taken jump, a jump past the end, and an instruction that steps over itself. -/
theorem test_witness_NextPcIsOneOfThree :
    answers (step (st [0x00] [])) (fun t => t.status == .halted) = true ∧
    answers (step (st [0x01] [])) (fun t => t.status == .faulted) = true ∧
    answers (step (st [0x60, 1] [])) (fun t => t.status == .running) = true ∧
    answers (step (st [0x57] [1, 0])) (fun t => t.status == .running) = true ∧
    answers (step { st [0x56] [1] with cfg := { cfg4 with jumpCheck := .haltOutside } })
      (fun t => t.status == .running) = true ∧
    answers (step (st [0x57] [0, 9])) (fun t => t.status == .running) = true ∧
    (st [0x57] [0, 9]).codeLen < 2 ^ (st [0x57] [0, 9]).cfg.pcWidth := by decide
theorem test_witness_UnderflowIsPrecise :
    Instr.swap3.wellFormed (st [0x92] [1, 2, 3]).cfg = true ∧ encode .swap3 = [0x92] ∧ (0x92, 4) ∈ slotNeeds ∧
    (st [0x92] [1, 2, 3]).sp < 4 := by decide
theorem test_witness_FaultsArePrecise :
    answers (step (st [0x52] [1, 999])) (fun t => t.status == .faulted) = true := by decide
theorem test_witness_HaltsChangeNoData :
    answers (step (st [0xFE] [1])) (fun t => t.status == .halted) = true ∧
    answers (step (st [] [1])) (fun t => t.haltCode == .endOfCode) = true := by decide
/-- Each cause in turn, and the order between them where two hold. -/
theorem test_witness_FaultsFollowCheckOrder :
    (st [0x82] [1, 2]).Shaped ∧ (st [] []).codeLen = 0 ∧ firstFault (st [0x82] [1, 2]) 0x82 = some .stackUnderflow ∧
    firstFault (st [0x61] [0, 0, 0, 0]) 0x61 = some .stackOverflow ∧
    firstFault (st [0x61, 1] [0]) 0x61 = some .immediateOutOfRange ∧
    firstFault (st [0x52] [0, 32]) 0x52 = some .memoryOutOfRange ∧ firstFault (st [0x52] [0, 31]) 0x52 = none ∧
    firstFault (st [0x52] [32]) 0x52 = some .stackUnderflow ∧
    firstFault (st [0x57] [1, 1]) 0x57 = some .invalidJumpTarget ∧ firstFault (st [0x57] [0, 1]) 0x57 = none ∧
    firstFault (st [0xAB] []) 0xAB = none ∧
    firstFault { st [0xAB] [] with cfg := { cfg4 with strictUnknown := true } } 0xAB = some .unknownOpcode := by decide
/-- A state in bounds and one out of bounds. -/
theorem test_witness_FaultExactlyOutOfBounds :
    (st [0x01] [5, 7]).Inv ∧ (st [0x01] [5, 7]).cfg.jumpCheck = .bounds ∧
    decode cfg4 ((st [0x01] [5, 7]).code.drop 0) = .instr .add [] ∧
    InBounds .add (st [0x01] [5, 7]) ∧ ¬ InBounds .swap2 (st [0x01] [5, 7]) :=
  ⟨test_witness_inv, rfl, by decide, ⟨by decide, nofun, by decide, by decide, by decide⟩, fun h => absurd h.need (by decide)⟩
/-- Two states that differ in a dead slot. -/
theorem test_witness_DeadSlotsAreUnobservable :
    (st [0x36] [7]).Shaped ∧ SameLive (st [0x36] [7]) ((st [0x36] [7]).setSlot 1 9) ∧
    (st [0x36] [7]).setSlot 1 9 ≠ st [0x36] [7] :=
  ⟨by decide, ⟨rfl, rfl, rfl, by decide, rfl, by decide, by decide, rfl⟩, by decide⟩
theorem test_witness_TraceHasNoEffect :
    answers (step { st [0x5B] [] with cfg := { cfg4 with traceEnable := true } }) (fun _ => true) = true := by decide
theorem test_witness_SwitchesOnlyChangeDecoding :
    answers (exec .jump (st [0x56] [0])) (fun t => t.status == .running) = true := by decide
/-- A step that writes the program counter and one that leaves it. -/
theorem test_witness_ProgramCounterKeepsItsWidth :
    answers (step (st [0x5B] [])) (fun t => t.pc == 1) = true ∧ answers (step (st [0x01] [])) (fun t => t.pc == 0) = true := by
  decide
/-- What PcBecomes supposes of the number, in the statements that use it. -/
theorem test_witness_PcBecomes :
    (st [0x01] [5, 7]).pc + 1 < 2 ^ (st [0x01] [5, 7]).cfg.pcWidth ∧
    (st [0x01] [5, 7]).code.length < 2 ^ (st [0x01] [5, 7]).cfg.pcWidth := by decide
theorem test_witness_DupThenSwapKeepsValue :
    (st [0x80, 0x90] [7]).Shaped ∧ (st [0x80, 0x90] [7]).sp = 1 ∧ 2 ≤ (st [0x80, 0x90] [7]).cfg.stackDepth := by decide
/-- Id 16, the last legal id that is a multiple of 16 in a memory of three cells. -/
theorem test_witness_StoredWordReadsBack :
    (st [0x52, 0x51] [0xAA, 16]).Shaped ∧ (st [0x52, 0x51] [0xAA, 16]).mem.wf = true ∧
    (st [0x52, 0x51] [0xAA, 16]).sp = 0 + 2 ∧ (st [0x52, 0x51] [0xAA, 16]).slot 1 = 16 ∧
    (st [0x52, 0x51] [0xAA, 16]).slot 0 = 0xAA ∧ 16 / 16 + 1 < (st [0x52, 0x51] [0xAA, 16]).cfg.memCells ∧
    16 % 16 = 0 := by decide
/-- A running and an ended state; the last live slot and the first dead one. -/
theorem test_witness_ObservationAfterTheRun :
    (st [] [7]).Shaped ∧ (st [] [7]).status = .running ∧ State.Shaped { st [] [7] with status := .halted } ∧
    State.status { st [] [7] with status := .halted } ≠ .running ∧ 0 < (st [] [7]).sp ∧ (st [] [7]).sp ≤ 1 := by decide
theorem test_witness_ChangedInputsRefused :
    (st [0x01] []).status = .running ∧ ([0x02] : List Byte) ≠ (st [0x01] []).code := by decide

end Sys2Proof.Tests
end

section
/-! PROOF. The reset input starts a new run on the inputs the block already has (spec/10_state.md R35,
70_reset_and_hazards.md R230). -/

namespace Sys2Proof.Machine

/-- The reset input answers, in every state, the boot on the state's own inputs, whose fields the `State.boot_…`
laws give. -/
theorem drive_reset (s : State) : drive .reset s = .next (State.boot s.cfg s.code s.calldata) := rfl

/-- R34: the boot on a state's own inputs keeps them. -/
theorem State.boot_sameInputs (s : State) : SameInputs s (State.boot s.cfg s.code s.calldata) :=
  ⟨State.boot_code .., State.boot_calldata .., State.boot_cfg ..⟩

/-- Settles O28: the state answered is the boot on the state's own inputs, so every register and memory are as at boot
and the inputs are kept. -/
theorem resetStartsAnew : Obligations.ResetStartsAnew := by
  intro s
  have slots : (State.boot s.cfg s.code s.calldata).stack.length = s.cfg.stackDepth := by simp
  exact ⟨State.boot s.cfg s.code s.calldata, drive_reset s, State.boot_pc .., State.boot_sp .., State.boot_status ..,
    State.boot_haltCode .., State.boot_faultCode .., State.boot_endPc .., State.boot_endOpcode .., State.boot_mem ..,
    slots, State.boot_sameInputs s⟩

end Sys2Proof.Machine
end

section
/-! PROOF. No step writes an input of the run (spec/20_memory.md R66, spec/10_state.md R34). -/

namespace Sys2Proof.Machine

theorem SameInputs.trans {s t u : State} (h : SameInputs s t) (h' : SameInputs t u) : SameInputs s u := by
  obtain ⟨hcode, hcalldata, hcfg⟩ := h
  obtain ⟨hcode', hcalldata', hcfg'⟩ := h'
  exact ⟨hcode'.trans hcode, hcalldata'.trans hcalldata, hcfg'.trans hcfg⟩

theorem State.emit_sameInputs (s : State) (op : Byte) : SameInputs s (s.emit op) :=
  ⟨State.emit_code .., State.emit_calldata .., State.emit_cfg ..⟩

theorem State.enterFault_sameInputs (s : State) (f : FaultCode) (op : Byte) : SameInputs s (s.enterFault f op) :=
  ⟨State.enterFault_code .., State.enterFault_calldata .., State.enterFault_cfg ..⟩

theorem State.enterHalt_sameInputs (s : State) (c : HaltCode) (op : Byte) : SameInputs s (s.enterHalt c op) :=
  ⟨State.enterHalt_code .., State.enterHalt_calldata .., State.enterHalt_cfg ..⟩

/-- The frame of a completing instruction names only pc, sp, the stack and memory. -/
theorem Completes.sameInputs {i : Instr} {s t : State} (h : Completes i s t) : SameInputs s t := by
  rw [h.frame]
  exact ⟨rfl, rfl, rfl⟩

theorem exec_sameInputs {i : Instr} {s t : State} (h : exec i s = .next t) : SameInputs s t := by
  rcases exec_next h with ⟨f, _, _, rfl⟩ | ⟨c, _, _, _, rfl⟩ | hc
  · exact s.enterFault_sameInputs f i.opcode
  · exact s.enterHalt_sameInputs c i.opcode
  · exact hc.sameInputs

/-- Settles O32, by what a step can do: an ended run stays as it is, and a running one enters a halt or a fault or
runs an instruction, after at most a trace event; none of these writes an input. -/
theorem inputsAreNeverWritten : Obligations.InputsAreNeverWritten := by
  intro s t h
  by_cases hr : s.status = .running
  · rcases step_cases hr h with ⟨_, rfl⟩ | ⟨op, _, _, ⟨_, rfl⟩ | ⟨_, rfl⟩⟩ | ⟨i, _, _, _, hexec⟩
    · exact s.enterHalt_sameInputs .endOfCode 0
    · exact (s.emit_sameInputs op).trans ((s.emit op).enterHalt_sameInputs .unknownOpcode op)
    · exact (s.emit_sameInputs op).trans ((s.emit op).enterFault_sameInputs .unknownOpcode op)
    · exact (s.emit_sameInputs i.opcode).trans (exec_sameInputs hexec)
  · rw [step_ended hr] at h
    cases h
    exact ⟨rfl, rfl, rfl⟩

end Sys2Proof.Machine
end

section
/-! PROOF. The opcode bytes that the statements of spec/40_sequencer.md list, read off the opcode table
(spec/30_encoding.md R75, R76). -/

namespace Sys2Proof.Machine

/-- An instruction without an immediate is the only one with its opcode (R71). -/
theorem opcode_eq_opcode_iff {i j : Instr} (hj : j.immLen = 0) : i.opcode = j.opcode ↔ i = j := by
  refine ⟨fun h => ?_, fun h => h ▸ rfl⟩
  have hsame : i.withImm 0 = j.withImm 0 :=
    Instr.templates_opcodes_distinct _ i.template_mem _ j.template_mem (by simpa using h)
  have hi : i.immValue = 0 := by
    have hlen : i.immLen = 0 := by rw [← i.withImm_immLen 0, hsame, j.withImm_immLen, hj]
    simpa [hlen] using i.immValue_lt
  have hj0 : j.immValue = 0 := by simpa [hj] using j.immValue_lt
  rw [← i.withImm_immValue, ← j.withImm_immValue, hi, hj0, hsame]

theorem opcode_eq_mload_iff {i : Instr} : i.opcode = 0x51 ↔ i = .mload := opcode_eq_opcode_iff (j := .mload) rfl
theorem opcode_eq_mstore_iff {i : Instr} : i.opcode = 0x52 ↔ i = .mstore := opcode_eq_opcode_iff (j := .mstore) rfl
theorem opcode_eq_jump_iff {i : Instr} : i.opcode = 0x56 ↔ i = .jump := opcode_eq_opcode_iff (j := .jump) rfl
theorem opcode_eq_jumpi_iff {i : Instr} : i.opcode = 0x57 ↔ i = .jumpi := opcode_eq_opcode_iff (j := .jumpi) rfl

/-- The PUSH opcodes are those of the instructions with an immediate. -/
theorem opcode_mem_pushWidths_iff {i : Instr} {n : Nat} :
    (i.opcode, n) ∈ pushWidths ↔ i.immLen ≠ 0 ∧ n = i.immLen := by
  cases i <;> simp [pushWidths, Instr.opcode, Instr.immLen, Instr.row]

/-- The table of needs lists no instruction with need 0, for which no cursor is too low. -/
theorem exists_slotNeeds_iff {i : Instr} {n : Nat} :
    (∃ p ∈ slotNeeds, p.1 = i.opcode ∧ n < p.2) ↔ n < i.need := by
  cases i <;> simp [slotNeeds, Instr.opcode, Instr.need, Instr.row]

theorem opcode_mem_growingBytes_iff {i : Instr} : i.opcode ∈ growingBytes ↔ i.grow = true := by
  cases i <;> simp [growingBytes, Instr.opcode, Instr.grow, Instr.row]

/-- The rows of the table whose condition is not "always". -/
abbrev Conditional (i : Instr) : Prop := i = .not ∨ i = .jump ∨ i = .mload

theorem wellFormed_of_not_conditional {i : Instr} (cfg : Config) (h : ¬ Conditional i) : i.wellFormed cfg = true := by
  cases i
  case not => exact absurd (.inl rfl) h
  case jump => exact absurd (.inr (.inl rfl)) h
  case mload => exact absurd (.inr (.inr rfl)) h
  all_goals rfl

theorem opcode_mem_alwaysBytes {i : Instr} (h : ¬ Conditional i) : i.opcode ∈ alwaysBytes := by
  cases i <;> simp_all [alwaysBytes, Instr.opcode, Instr.row]

theorem exists_opcode_of_mem_alwaysBytes :
    ∀ b ∈ alwaysBytes, ∃ i ∈ Instr.templates, i.opcode = b ∧ ¬ Conditional i := by decide

/-- R76: the recognised bytes are the opcodes of the instructions the configuration has. -/
theorem recognised_iff {cfg : Config} {b : Byte} :
    Recognised cfg b ↔ ∃ i : Instr, i.opcode = b ∧ i.wellFormed cfg = true := by
  constructor
  · rintro (h | ⟨rfl, h⟩ | ⟨rfl, h⟩ | ⟨rfl, h⟩)
    · obtain ⟨i, _, hop, hi⟩ := exists_opcode_of_mem_alwaysBytes b h
      exact ⟨i, hop, wellFormed_of_not_conditional cfg hi⟩
    · exact ⟨.not, rfl, h⟩
    · exact ⟨.jump, rfl, h⟩
    · exact ⟨.mload, rfl, beq_iff_eq.2 h⟩
  · rintro ⟨i, rfl, h⟩
    by_cases hi : Conditional i
    · obtain rfl | rfl | rfl := hi
      · exact .inr (.inl ⟨rfl, h⟩)
      · exact .inr (.inr (.inl ⟨rfl, h⟩))
      · exact .inr (.inr (.inr ⟨rfl, beq_iff_eq.1 h⟩))
    · exact .inl (opcode_mem_alwaysBytes hi)

theorem not_recognised_of_decodeOp {cfg : Config} {b : Byte} (h : decodeOp cfg b = none) : ¬ Recognised cfg b := by
  rw [recognised_iff]
  rintro ⟨i, rfl, hw⟩
  rw [decodeOp_opcode hw] at h
  cases h

end Sys2Proof.Machine
end

section
/-! PROOF. The step of spec/40_sequencer.md: when it does nothing, the end of the code, and where the program counter
is after it (R100, R101, R104). -/

namespace Sys2Proof.Machine

/-- Settles O6: STATUS is the first thing a step looks at. -/
theorem endedRunStaysEnded : Obligations.EndedRunStaysEnded := fun _ h => step_ended h

theorem step_past {s : State} (hr : s.status = .running) (hp : s.codeLen ≤ s.pc) :
    step s = .next (s.enterHalt .endOfCode 0) := by
  rw [step_running hr, s.fetch_past hp]
  rfl

/-- Settles O7: past the end the step is the entry of the EndOfCode halt, without a trace event. -/
theorem endOfCodeHalts : Obligations.EndOfCodeHalts :=
  fun s hr hp => ⟨_, step_past hr hp, s.enterHalt_haltsWith .endOfCode 0⟩

theorem Completes.status_eq {i : Instr} {s t : State} (h : Completes i s t) : t.status = s.status := by
  rw [h.frame]

/-- How a running step ends: halted at the end of the code, faulted where it was, or with the instruction at the
program counter complete. -/
theorem step_pc_cases {s t : State} (hr : s.status = .running) (h : step s = .next t) :
    (t.status = .halted ∧ t.pc = s.toPc s.codeLen) ∨ (t.status = .faulted ∧ t.pc = s.pc) ∨
    (t.status = .running ∧ ∃ i : Instr, s.code[s.pc]? = some i.opcode ∧ Completes i (s.emit i.opcode) t) := by
  rcases step_cases hr h with ⟨_, rfl⟩ | ⟨op, _, _, ⟨_, rfl⟩ | ⟨_, rfl⟩⟩ | ⟨i, hop, _, _, hexec⟩
  · exact .inl ⟨rfl, rfl⟩
  · exact .inl ⟨rfl, by simp⟩
  · exact .inr (.inl ⟨rfl, by simp⟩)
  · rcases exec_next hexec with ⟨f, _, _, rfl⟩ | ⟨c, _, _, _, rfl⟩ | hc
    · exact .inr (.inl ⟨rfl, by simp⟩)
    · exact .inl ⟨rfl, by simp⟩
    · exact .inr (.inr ⟨by rw [hc.status_eq, State.emit_status, hr], i, hop, hc⟩)

/-- Where the code fits the program counter's width, a completing instruction loses no bit of the next address: what it
fetches lies in the code, and so does a resolved target. -/
theorem Completes.pc_eq {i : Instr} {s t : State} (h : Completes i s t) (hp : s.pc < s.codeLen)
    (hw : s.codeLen < 2 ^ s.cfg.pcWidth) :
    (t.pc = s.pc + 1 + i.immLen ∧ i ≠ .jump ∧ (i = .jumpi → s.fromTop 2 = 0)) ∨
    ((i = .jump ∨ i = .jumpi ∧ s.fromTop 2 ≠ 0) ∧
      t.pc = if (s.fromTop 1).toNat < s.codeLen then (s.fromTop 1).toNat else s.codeLen) := by
  rcases h.nextPc with ⟨hpc, hother⟩ | ⟨hjump, p, hres, hpc⟩
  · have hle : s.pc + 1 + i.immLen ≤ s.codeLen := by
      rcases h.immediate with h0 | hle
      · omega
      · exact hle
    exact .inl ⟨hpc.trans (s.toPc_of_lt (Nat.lt_of_le_of_lt hle hw)), hother⟩
  · have hp := State.resolveTarget_eq hres
    have hle : p ≤ s.codeLen := by
      rw [hp]
      split <;> omega
    exact .inr ⟨hjump, (hpc.trans (s.toPc_of_lt (Nat.lt_of_le_of_lt hle hw))).trans hp⟩

/-- Settles O36, by how a running step ends; where the instruction completes, the byte fetched says whether it is a
PUSH, a taken jump or another. -/
theorem nextPcIsOneOfThree : Obligations.NextPcIsOneOfThree := by
  intro s t hr hw h
  rcases step_pc_cases hr h with ⟨hst, hpc⟩ | ⟨hst, hpc⟩ | ⟨hst, i, hop, hc⟩
  · exact ⟨fun _ => hpc.trans (s.toPc_of_lt hw), by simp [hst], by simp [hst]⟩
  · exact ⟨by simp [hst], fun _ => hpc, by simp [hst]⟩
  · refine ⟨by simp [hst], by simp [hst], fun _ => ⟨i.opcode, hop, ?_⟩⟩
    have hnext := hc.pc_eq (by simpa using (s.code_drop hop).1) (by simpa using hw)
    simp only [State.emit_pc, State.emit_codeLen, State.emit_fromTop] at hnext
    simp only [State.fromTop_eq] at hnext
    simp only [ne_eq, opcode_mem_pushWidths_iff, opcode_eq_jump_iff, opcode_eq_jumpi_iff]
    rcases hnext with ⟨hpc, hjump, hjumpi⟩ | ⟨htaken, hpc⟩
    · refine ⟨fun n hn => hn.2 ▸ hpc, ?_, fun hpush _ _ => ?_⟩
      · rintro (hi | ⟨hi, hcond⟩)
        · exact absurd hi hjump
        · exact absurd (hjumpi hi) hcond
      · have h0 : i.immLen = 0 := Classical.not_not.1 fun hne => hpush _ ⟨hne, rfl⟩
        rw [hpc, h0]
    · refine ⟨?_, fun _ => hpc, fun _ hj hji => ?_⟩
      · rintro n ⟨hlen, _⟩
        obtain rfl | ⟨rfl, _⟩ := htaken
        · exact absurd rfl hlen
        · exact absurd rfl hlen
      · obtain hi | ⟨hi, hcond⟩ := htaken
        · exact absurd hi hj
        · exact absurd (hji hi) hcond

end Sys2Proof.Machine
end

section
/-! PROOF. Which fault a step raises: the checks in the order of spec/40_sequencer.md R108. -/

namespace Sys2Proof.Machine

/-- The fault a state has stopped with. -/
def State.raised (s : State) : Option FaultCode := if s.status = .faulted then some s.faultCode else none

theorem State.raised_enterFault (s : State) (f : FaultCode) (op : Byte) : (s.enterFault f op).raised = some f := rfl

theorem State.raised_enterHalt (s : State) (c : HaltCode) (op : Byte) : (s.enterHalt c op).raised = none := rfl

theorem State.raised_of_running {s : State} (h : s.status = .running) : s.raised = none := by
  simp [State.raised, h]

/-- The instruction's own check (R108 item 5), of an instruction that passed the stack checks. -/
def ownFault (i : Instr) (s : State) : Option FaultCode :=
  if i.immLen ≠ 0 ∧ s.codeLen < s.pc + 1 + i.immLen then some .immediateOutOfRange
  else if (i = .mstore ∨ i = .mload) ∧ s.cfg.memCells ≤ (s.fromTop 1).toNat / 16 + 1 then some .memoryOutOfRange
  else if (i = .jump ∨ i = .jumpi ∧ s.fromTop 2 ≠ 0) ∧ s.resolveTarget (s.fromTop 1) = none then
    some .invalidJumpTarget
  else none

/-- The checks an instruction makes (R108 items 3 to 5). -/
def instrFault (i : Instr) (s : State) : Option FaultCode :=
  if s.sp < i.need then some .stackUnderflow
  else if i.grow = true ∧ s.sp = s.cfg.stackDepth then some .stackOverflow
  else ownFault i s

theorem instrFault_emit (i : Instr) (s : State) (op : Byte) : instrFault i (s.emit op) = instrFault i s := by
  simp [instrFault, ownFault]

/-! ### The own check, by instruction -/

/-- The instruction has no check of its own. -/
abbrev NoOwnCheck (i : Instr) : Prop := i.immLen = 0 ∧ i ≠ .mload ∧ Plain i

theorem NoOwnCheck.ownFault_eq {i : Instr} (hi : NoOwnCheck i) (s : State) : ownFault i s = none := by
  obtain ⟨hlen, hmload, hmstore, hjump, hjumpi⟩ := hi
  simp [ownFault, hlen, hmload, hmstore, hjump, hjumpi]

theorem ownFault_push {i : Instr} (hi : i.immLen ≠ 0) (s : State) :
    ownFault i s = if s.codeLen < s.pc + 1 + i.immLen then some .immediateOutOfRange else none := by
  have hne : ∀ j : Instr, j.immLen = 0 → i ≠ j := by
    rintro j hj rfl
    exact hi hj
  simp [ownFault, hi, hne .mstore rfl, hne .mload rfl, hne .jump rfl, hne .jumpi rfl]

theorem ownFault_mstore (s : State) : ownFault .mstore s =
    if s.cfg.memCells ≤ (s.fromTop 1).toNat / 16 + 1 then some .memoryOutOfRange else none := by
  simp [ownFault, Instr.immLen, Instr.row]

theorem ownFault_mload (s : State) : ownFault .mload s =
    if s.cfg.memCells ≤ (s.fromTop 1).toNat / 16 + 1 then some .memoryOutOfRange else none := by
  simp [ownFault, Instr.immLen, Instr.row]

theorem ownFault_jump (s : State) : ownFault .jump s =
    if s.resolveTarget (s.fromTop 1) = none then some .invalidJumpTarget else none := by
  simp [ownFault, Instr.immLen, Instr.row]

theorem ownFault_jumpi (s : State) : ownFault .jumpi s =
    if s.fromTop 2 ≠ 0 ∧ s.resolveTarget (s.fromTop 1) = none then some .invalidJumpTarget else none := by
  simp [ownFault, Instr.immLen, Instr.row]

/-! ### `firstFault` of the statement, by instruction -/

theorem State.resolveTarget_eq_none_iff {s : State} {dest : Word} :
    s.resolveTarget dest = none ↔ TargetRejected s dest.toNat := by
  by_cases hd : s.codeLen ≤ dest.toNat
  · rw [s.resolveTarget_past hd]
    cases hj : s.cfg.jumpCheck <;> simp [TargetRejected, hd, hj, Nat.not_lt.2 hd]
  · have hd' : dest.toNat < s.codeLen := Nat.not_le.1 hd
    rw [s.resolveTarget_inside hd']
    simp [TargetRejected, hd, hd']

theorem exists_pushWidths_iff {i : Instr} {s : State} :
    (∃ p ∈ pushWidths, p.1 = i.opcode ∧ s.codeLen < s.pc + 1 + p.2) ↔
      i.immLen ≠ 0 ∧ s.codeLen < s.pc + 1 + i.immLen := by
  constructor
  · rintro ⟨⟨op, n⟩, hmem, rfl, hlt⟩
    obtain ⟨h0, rfl⟩ := opcode_mem_pushWidths_iff.1 hmem
    exact ⟨h0, hlt⟩
  · rintro ⟨h0, hlt⟩
    exact ⟨(i.opcode, i.immLen), opcode_mem_pushWidths_iff.2 ⟨h0, rfl⟩, rfl, hlt⟩

theorem firstFault_of_not_recognised {s : State} {op : Byte} (h : ¬ Recognised s.cfg op) :
    firstFault s op = if s.cfg.strictUnknown = true then some .unknownOpcode else none := if_pos h

theorem firstFault_opcode {i : Instr} {s : State} (h : i.wellFormed s.cfg = true) :
    firstFault s i.opcode = instrFault i s := by
  unfold firstFault
  rw [if_neg (not_not_intro (recognised_iff.2 ⟨i, rfl, h⟩))]
  simp only [exists_slotNeeds_iff, opcode_mem_growingBytes_iff, exists_pushWidths_iff, opcode_eq_mstore_iff,
    opcode_eq_mload_iff, opcode_eq_jump_iff, opcode_eq_jumpi_iff, ← State.fromTop_eq,
    ← State.resolveTarget_eq_none_iff]
  rfl

/-! ### What each instruction raises -/

theorem StackFault.raised_eq {i : Instr} {s t : State} (h : StackFault i s t) : t.raised = instrFault i s := by
  rcases h with ⟨hn, rfl⟩ | ⟨hn, hg, hd, rfl⟩
  · rw [instrFault, if_pos hn, State.raised_enterFault]
  · rw [instrFault, if_neg (Nat.not_lt.2 hn), if_pos ⟨hg, hd⟩, State.raised_enterFault]

theorem StackFits.instrFault_eq {i : Instr} {s : State} (h : StackFits i s) : instrFault i s = ownFault i s := by
  obtain ⟨_, hn, hg⟩ := h
  rw [instrFault, if_neg (Nat.not_lt.2 hn), if_neg fun hf => Nat.ne_of_lt (hg hf.1) hf.2]

/-- An instruction whose rule after the stack checks always goes on. -/
theorem checked_raised {i : Instr} {s t u : State} (hi : NoOwnCheck i) (h : checked i s (.next u) = .next t)
    (hu : u.status = .running) : t.raised = instrFault i s := by
  rcases checked_next h with hf | ⟨hf, h⟩
  · exact hf.raised_eq
  · cases h
    rw [hf.instrFault_eq, hi.ownFault_eq, State.raised_of_running hu]

theorem pushImmediate_raised {i : Instr} {v : Word} {s t : State} (hi : i.immLen ≠ 0) (hr : s.status = .running)
    (h : pushImmediate i v s = .next t) : t.raised = instrFault i s := by
  rcases pushImmediate_next h with hf | ⟨hf, hout, rfl⟩ | ⟨hf, hin, rfl⟩
  · exact hf.raised_eq
  · rw [hf.instrFault_eq, ownFault_push hi, if_pos hout, State.raised_enterFault]
  · rw [hf.instrFault_eq, ownFault_push hi, if_neg (Nat.not_lt.2 hin), State.raised_of_running (by simpa using hr)]

theorem execMstore_raised {s t : State} (hr : s.status = .running) (h : execMstore s = .next t) :
    t.raised = instrFault .mstore s := by
  rcases execMstore_next h with hf | ⟨hf, hout, rfl⟩ | ⟨hf, hin, rfl⟩
  · exact hf.raised_eq
  · rw [hf.instrFault_eq, ownFault_mstore, if_pos hout, State.raised_enterFault]
  · rw [hf.instrFault_eq, ownFault_mstore, if_neg (Nat.not_le.2 hin), State.raised_of_running (by simpa using hr)]

theorem execMload_raised {s t : State} (hr : s.status = .running) (h : execMload s = .next t) :
    t.raised = instrFault .mload s := by
  rcases execMload_next h with hf | ⟨hf, hout, rfl⟩ | ⟨hf, hin, rfl⟩
  · exact hf.raised_eq
  · rw [hf.instrFault_eq, ownFault_mload, if_pos hout, State.raised_enterFault]
  · rw [hf.instrFault_eq, ownFault_mload, if_neg (Nat.not_le.2 hin), State.raised_of_running (by simpa using hr)]

theorem execJump_raised {s t : State} (hr : s.status = .running) (h : execJump s = .next t) :
    t.raised = instrFault .jump s := by
  rcases execJump_next h with hf | ⟨hf, hbad, rfl⟩ | ⟨hf, p, hgood, rfl⟩
  · exact hf.raised_eq
  · rw [hf.instrFault_eq, ownFault_jump, if_pos hbad, State.raised_enterFault]
  · rw [hf.instrFault_eq, ownFault_jump, if_neg (by simp [hgood]), State.raised_of_running (by simpa using hr)]

theorem execJumpi_raised {s t : State} (hr : s.status = .running) (h : execJumpi s = .next t) :
    t.raised = instrFault .jumpi s := by
  rcases execJumpi_next h with hf | ⟨hf, hz, rfl⟩ | ⟨hf, hnz, hbad, rfl⟩ | ⟨hf, _, p, hgood, rfl⟩
  · exact hf.raised_eq
  · rw [hf.instrFault_eq, ownFault_jumpi, if_neg fun hc => hc.1 hz, State.raised_of_running (by simpa using hr)]
  · rw [hf.instrFault_eq, ownFault_jumpi, if_pos ⟨hnz, hbad⟩, State.raised_enterFault]
  · rw [hf.instrFault_eq, ownFault_jumpi, if_neg (by simp [hgood]), State.raised_of_running (by simpa using hr)]

/-- An instruction that checks nothing at all. -/
theorem instrFault_eq_none {i : Instr} (hi : NoOwnCheck i) (hn : i.need = 0) (hg : i.grow = false) (s : State) :
    instrFault i s = none := by
  simp [instrFault, hn, hg, hi.ownFault_eq]

theorem exec_raised {i : Instr} {s t : State} (hr : s.status = .running) (h : exec i s = .next t) :
    t.raised = instrFault i s := by
  cases i
  case stop | ret | revert | invalid =>
    cases h
    rw [State.raised_enterHalt, instrFault_eq_none (by decide) rfl rfl]
  case jumpdest =>
    cases h
    rw [State.raised_of_running (s := s.advance 0) hr, instrFault_eq_none (by decide) rfl rfl]
  case push1 => exact pushImmediate_raised nofun hr h
  case push2 => exact pushImmediate_raised nofun hr h
  case push4 => exact pushImmediate_raised nofun hr h
  case push29 => exact pushImmediate_raised nofun hr h
  case mstore => exact execMstore_raised hr h
  case mload => exact execMload_raised hr h
  case jump => exact execJump_raised hr h
  case jumpi => exact execJumpi_raised hr h
  all_goals exact checked_raised (by decide) h hr

/-! ### The step -/

theorem unknownOpcode_answers (op : Byte) (s : State) : ∃ t, unknownOpcode op s = .next t := by
  unfold unknownOpcode
  split
  · exact ⟨_, rfl⟩
  · exact ⟨_, rfl⟩

/-- On slots that exist, every step answers a next state. -/
theorem step_answers {s : State} (hs : s.Shaped) : ∃ t, step s = .next t := by
  by_cases hr : s.status = .running
  · have hemit : ∀ op, (s.emit op).Shaped := by simpa [State.Shaped] using hs
    rw [step_running hr]
    cases s.fetch with
    | empty => exact ⟨_, rfl⟩
    | unknown op => exact unknownOpcode_answers op (s.emit op)
    | truncated i => exact exec_answers i (hemit i.opcode)
    | instr i rest => exact exec_answers i (hemit i.opcode)
  · exact ⟨s, step_ended hr⟩

/-- A step that fetches a byte raises what the first check that fails says. -/
theorem step_raised {s t : State} {op : Byte} (hr : s.status = .running) (hop : s.code[s.pc]? = some op)
    (h : step s = .next t) : t.raised = firstFault s op := by
  rcases step_cases hr h with ⟨hpast, _⟩ | ⟨op', hop', hdec, hend⟩ | ⟨i, hi, hw, _, hexec⟩
  · exact absurd (s.code_drop hop).1 (Nat.not_lt.2 hpast)
  · obtain rfl : op' = op := Option.some.inj (hop'.symm.trans hop)
    rw [firstFault_of_not_recognised (not_recognised_of_decodeOp hdec)]
    rcases hend with ⟨hstrict, rfl⟩ | ⟨hstrict, rfl⟩
    · rw [State.raised_enterHalt, if_neg (by simp [hstrict])]
    · rw [State.raised_enterFault, if_pos hstrict]
  · obtain rfl : i.opcode = op := Option.some.inj (hi.symm.trans hop)
    rw [exec_raised (by simpa using hr) hexec, instrFault_emit, firstFault_opcode hw]

/-- Settles O39: past the end of the code the step is the EndOfCode halt; elsewhere it answers a state whose fault is
that of the first check that fails. -/
theorem faultsFollowCheckOrder : Obligations.FaultsFollowCheckOrder := by
  intro s hr hs
  refine ⟨fun hp => ⟨_, step_past hr hp, rfl, rfl⟩, fun op hop => ?_⟩
  obtain ⟨t, ht⟩ := step_answers hs
  exact ⟨t, ht, step_raised hr hop ht⟩

end Sys2Proof.Machine
end

section
/-! PROOF. The immediate in the code: the number the decoder reads and the bytes of the word made of it
(spec/30_encoding.md R74). -/

namespace Sys2Proof

/-- Leading zero bytes do not change the number. -/
theorem beNat_replicate_zero_append (m : Nat) (bs : List Byte) : beNat (List.replicate m 0 ++ bs) = beNat bs := by
  induction m with
  | zero => rfl
  | succ m ih => simpa [List.replicate_succ, beNat_cons] using ih

/-- The immediate of a decoded instruction is spelled by the bytes after its opcode. -/
theorem decode_instr_immValue {cfg : Config} {b : Byte} {bs rest : List Byte} {i : Instr}
    (h : decode cfg (b :: bs) = .instr i rest) : i.immValue = beNat (bs.take i.immLen) := by
  rcases decode_cons cfg b bs with ⟨_, h'⟩ | ⟨j, _, _, h'⟩ | ⟨j, _, hl, h'⟩ <;> rw [h'] at h
  · cases h
  · cases h
  · cases h
    have hlt := beNat_lt (bs.take j.immLen)
    rw [List.length_take_of_le hl] at hlt
    rw [Instr.immValue_withImm _ _ hlt, Instr.withImm_immLen]

end Sys2Proof

namespace Sys2Proof.Machine

/-- The 32 bytes of a word made of at most 32 bytes: these, right-aligned, after zeros. -/
theorem wordByte_wordOfBytes_padded {bs : List Byte} (h : bs.length ≤ 32) {k : Nat} (hk : k < 32) :
    (List.replicate (32 - bs.length) 0 ++ bs)[k]? = some (wordByte (wordOfBytes bs) k) := by
  have hpad : wordOfBytes (List.replicate (32 - bs.length) 0 ++ bs) = wordOfBytes bs := by
    rw [wordOfBytes, beNat_replicate_zero_append, wordOfBytes]
  rw [← hpad]
  exact wordByte_wordOfBytes _ (by simp; omega) k hk

theorem wordByte_wordOfBytes_low {bs : List Byte} (h : bs.length ≤ 32) {k : Nat} (hk : k < bs.length) :
    bs[k]? = some (wordByte (wordOfBytes bs) (32 - bs.length + k)) := by
  rw [← wordByte_wordOfBytes_padded h (by omega), List.getElem?_append_right (by simp)]
  simp

theorem wordByte_wordOfBytes_high {bs : List Byte} (h : bs.length ≤ 32) {k : Nat} (hk : k < 32 - bs.length) :
    wordByte (wordOfBytes bs) k = 0 := by
  have hbyte := wordByte_wordOfBytes_padded h (k := k) (by omega)
  rw [List.getElem?_append_left (by simpa using hk), List.getElem?_replicate_of_lt hk] at hbyte
  exact (Option.some.inj hbyte).symm

end Sys2Proof.Machine
end

section
/-! PROOF. A PUSH in the code (spec/41_push.md R120 to R125): its checks, and the bytes of the slot it pushes. -/

namespace Sys2Proof.Machine

/-! ### The instructions with an immediate -/

/-- Every instruction with an immediate runs the shared rule of PUSHN. -/
theorem exec_push {i : Instr} (hi : i.immLen ≠ 0) (s : State) :
    exec i s = pushImmediate i (BitVec.ofNat 256 i.immValue) s := by
  cases i
  case push1 imm => rw [exec_push1, Instr.immValue, BitVec.ofNat_toNat, zext256]
  case push2 imm => rw [exec_push2, Instr.immValue, BitVec.ofNat_toNat, zext256]
  case push4 imm => rw [exec_push4, Instr.immValue, BitVec.ofNat_toNat, zext256]
  case push29 imm => rw [exec_push29, Instr.immValue, BitVec.ofNat_toNat, zext256]
  all_goals exact absurd rfl hi

theorem need_of_immLen {i : Instr} (hi : i.immLen ≠ 0) : i.need = 0 := by
  cases i
  case push1 | push2 | push4 | push29 => rfl
  all_goals exact absurd rfl hi

theorem grow_of_immLen {i : Instr} (hi : i.immLen ≠ 0) : i.grow = true := by
  cases i
  case push1 | push2 | push4 | push29 => rfl
  all_goals exact absurd rfl hi

/-! ### What a push leaves unchanged -/

theorem State.slot_push_self {s : State} (h : s.sp < s.stack.length) (v : Word) : (s.push v).slot s.sp = v := by
  rw [State.push_eq, State.slot_setSp, State.slot_setSlot _ _ _ _ h, if_pos rfl]

theorem State.advance_push_frameBut (s : State) (v : Word) (n : Nat) :
    FrameBut [s.sp] s ((s.push v).advance n) := by
  refine ⟨⟨by simp, fun i hi => ?_⟩, ⟨rfl, rfl, rfl, rfl, rfl⟩, ⟨rfl, rfl, rfl⟩, rfl⟩
  exact List.getElem?_set_ne (by simpa [eq_comm] using hi)

/-! ### The trace event of the fetch, taken out -/

theorem State.emit_enterFault_restore (s : State) (f : FaultCode) (op : Byte) :
    { (s.emit op).enterFault f op with trace := s.trace } = s.enterFault f op :=
  congrArg (·.enterFault f op) (s.emit_restore op)

theorem State.emit_push_restore (s : State) (op : Byte) (v : Word) (n : Nat) :
    { ((s.emit op).push v).advance n with trace := s.trace } = (s.push v).advance n :=
  congrArg (fun u => (u.push v).advance n) (s.emit_restore op)

/-! ### The step -/

/-- The immediate's `n` bytes after the opcode at the program counter. -/
def State.immBytes (s : State) (n : Nat) : List Byte := (s.code.drop (s.pc + 1)).take n

theorem State.immBytes_length {s : State} {n : Nat} (h : s.pc + 1 + n ≤ s.codeLen) : (s.immBytes n).length = n := by
  have hlen : s.codeLen = s.code.length := rfl
  rw [State.immBytes, List.length_take, List.length_drop]
  omega

theorem State.immBytes_getElem? (s : State) {n k : Nat} (hk : k < n) :
    (s.immBytes n)[k]? = s.code[s.pc + 1 + k]? := by
  rw [State.immBytes, List.getElem?_take_of_lt hk, List.getElem?_drop]

theorem State.fetch_immValue {s : State} {op : Byte} {i : Instr} {rest : List Byte} (hop : s.code[s.pc]? = some op)
    (h : s.fetch = .instr i rest) : i.immValue = beNat (s.immBytes i.immLen) := by
  obtain ⟨hp, hdrop⟩ := s.code_drop hop
  rw [s.fetch_inside hp, hdrop] at h
  exact decode_instr_immValue h

theorem recognised_of_mem_pushWidths {cfg : Config} {op : Byte} {n : Nat} (h : (op, n) ∈ pushWidths) :
    Recognised cfg op := by
  have hall : ∀ p ∈ pushWidths, p.1 ∈ alwaysBytes := by decide
  exact .inl (hall _ h)

/-- A step that fetches a PUSH opcode runs that PUSH, with the immediate its bytes in the code spell unless they are
cut short. -/
theorem step_push {s t : State} {op : Byte} {n : Nat} (hr : s.status = .running) (hpush : (op, n) ∈ pushWidths)
    (hop : s.code[s.pc]? = some op) (h : step s = .next t) :
    ∃ i : Instr, i.opcode = op ∧ i.immLen = n ∧ n ≠ 0 ∧ exec i (s.emit op) = .next t ∧
      (s.pc + 1 + n ≤ s.codeLen → i.immValue = beNat (s.immBytes n)) := by
  rcases step_cases hr h with ⟨hpast, _⟩ | ⟨op', hop', hdec, _⟩ | ⟨i, hi, _, hfetch, hexec⟩
  · exact absurd (s.code_drop hop).1 (Nat.not_lt.2 hpast)
  · obtain rfl : op' = op := Option.some.inj (hop'.symm.trans hop)
    exact absurd (recognised_of_mem_pushWidths hpush) (not_recognised_of_decodeOp hdec)
  · obtain rfl : i.opcode = op := Option.some.inj (hi.symm.trans hop)
    obtain ⟨hlen, rfl⟩ := opcode_mem_pushWidths_iff.1 hpush
    refine ⟨i, rfl, rfl, hlen, hexec, fun hin => ?_⟩
    rcases hfetch with ⟨_, hshort⟩ | ⟨_, hfetch, _⟩
    · exact absurd hin (Nat.not_le.2 hshort)
    · exact State.fetch_immValue hop hfetch

/-- Everything a step that fetches a PUSH opcode can do, in the order of its checks. -/
theorem step_push_cases {s t : State} {op : Byte} {n : Nat} (hr : s.status = .running)
    (hpush : (op, n) ∈ pushWidths) (hop : s.code[s.pc]? = some op) (h : step s = .next t) :
    (s.sp = s.cfg.stackDepth ∧ t = (s.emit op).enterFault .stackOverflow op) ∨
    (s.sp < s.cfg.stackDepth ∧ s.codeLen < s.pc + 1 + n ∧ t = (s.emit op).enterFault .immediateOutOfRange op) ∨
    (s.sp < s.cfg.stackDepth ∧ s.pc + 1 + n ≤ s.codeLen ∧
      t = ((s.emit op).push (wordOfBytes (s.immBytes n))).advance n) := by
  obtain ⟨i, rfl, rfl, hlen, hexec, himm⟩ := step_push hr hpush hop h
  rw [exec_push hlen] at hexec
  rcases pushImmediate_next hexec with (⟨hneed, _⟩ | ⟨_, _, hfull, ht⟩) | ⟨⟨_, _, hroom⟩, hout, ht⟩ |
    ⟨⟨_, _, hroom⟩, hin, ht⟩
  · simp [need_of_immLen hlen] at hneed
  · exact .inl ⟨by simpa using hfull, ht⟩
  · exact .inr (.inl ⟨by simpa using hroom (grow_of_immLen hlen), by simpa using hout, ht⟩)
  · have hin : s.pc + 1 + i.immLen ≤ s.codeLen := by simpa using hin
    rw [himm hin] at ht
    exact .inr (.inr ⟨by simpa using hroom (grow_of_immLen hlen), hin, ht⟩)

theorem pushWidths_le_32 : ∀ p ∈ pushWidths, p.2 ≤ 32 := by decide

/-- R74: where the word of the immediate's bytes stands, byte `32 - n + k` is the code's at `pc + 1 + k`, and the
bytes before these are 0. -/
theorem State.immBytes_placed {s : State} {n : Nat} (hn : n ≤ 32) (hin : s.pc + 1 + n ≤ s.codeLen) :
    (∀ k, k < n → s.code[s.pc + 1 + k]? = some (wordByte (wordOfBytes (s.immBytes n)) (32 - n + k))) ∧
      ∀ k, k < 32 - n → wordByte (wordOfBytes (s.immBytes n)) k = 0 := by
  have hlen := State.immBytes_length hin
  have hle : (s.immBytes n).length ≤ 32 := Nat.le_trans (Nat.le_of_eq hlen) hn
  refine ⟨fun k hk => ?_, fun k hk => wordByte_wordOfBytes_high hle (hlen.symm ▸ hk)⟩
  rw [← s.immBytes_getElem? hk, wordByte_wordOfBytes_low hle (hlen.symm ▸ hk), hlen]

/-- Settles O10, by what a step on a PUSH opcode can do: each of its three ends is the one the checks' order names, and
the word it pushes is spelled by the immediate's bytes. -/
theorem pushPlacesImmediateBytes : Obligations.PushPlacesImmediateBytes := by
  intro s op n hr hs hpush hop
  obtain ⟨t, ht⟩ := step_answers hs
  rcases step_push_cases hr hpush hop ht with ⟨hfull, rfl⟩ | ⟨hroom, hout, rfl⟩ | ⟨hroom, hin, rfl⟩
  · refine ⟨fun _ => ⟨_, ht, ?_⟩, fun hroom => absurd hfull (Nat.ne_of_lt hroom),
      fun hroom => absurd hfull (Nat.ne_of_lt hroom)⟩
    rw [State.emit_enterFault_restore]
    exact s.enterFault_faultsWith .stackOverflow op
  · refine ⟨fun hfull => absurd hfull (Nat.ne_of_lt hroom), fun _ _ => ⟨_, ht, ?_⟩,
      fun _ hin => absurd hin (Nat.not_le.2 hout)⟩
    rw [State.emit_enterFault_restore]
    exact s.enterFault_faultsWith .immediateOutOfRange op
  · obtain ⟨hlength, _⟩ := hs
    refine ⟨fun hfull => absurd hfull (Nat.ne_of_lt hroom), fun _ hout => absurd hin (Nat.not_le.2 hout),
      fun _ _ => ⟨_, ht, by simp, .of_toPc (by simp), ?_⟩⟩
    have hslot : (((s.emit op).push (wordOfBytes (s.immBytes n))).advance n).slot s.sp =
        wordOfBytes (s.immBytes n) := by
      have hlt : (s.emit op).sp < (s.emit op).stack.length := by simpa [hlength] using hroom
      simpa using State.slot_push_self hlt (wordOfBytes (s.immBytes n))
    obtain ⟨hlow, hhigh⟩ := s.immBytes_placed (pushWidths_le_32 _ hpush) hin
    rw [hslot, State.emit_push_restore]
    exact ⟨hlow, hhigh, fun a => by simp, s.advance_push_frameBut _ n⟩

end Sys2Proof.Machine
end

section
/-! PROOF. DUP1 to DUP3 and SWAP1 to SWAP3 (spec/42_stack.md R130 to R137), each by the rule of every depth. -/

namespace Sys2Proof.Machine

theorem encode_of_immLen_eq_zero {i : Instr} (h : i.immLen = 0) : encode i = [i.opcode] := by
  rw [encode, h]
  rfl

/-! ### Frames -/

theorem FrameBut.trans {as bs : List Nat} {s t u : State} (h : FrameBut as s t) (h' : FrameBut bs t u) :
    FrameBut (as ++ bs) s u := by
  obtain ⟨⟨hlen, hslots⟩, ⟨hst, hhalt, hfault, hpc, hop⟩, hin, htr⟩ := h
  obtain ⟨⟨hlen', hslots'⟩, ⟨hst', hhalt', hfault', hpc', hop'⟩, hin', htr'⟩ := h'
  refine ⟨⟨hlen'.trans hlen, fun i hi => ?_⟩,
    ⟨hst'.trans hst, hhalt'.trans hhalt, hfault'.trans hfault, hpc'.trans hpc, hop'.trans hop⟩,
    hin.trans hin', htr'.trans htr⟩
  obtain ⟨hi, hi'⟩ := not_or.1 (mt List.mem_append.2 hi)
  exact (hslots' i hi').trans (hslots i hi)

theorem State.setSlot_frameBut (s : State) (i : Nat) (v : Word) : FrameBut [i] s (s.setSlot i v) := by
  refine ⟨⟨by simp, fun j hj => ?_⟩, ⟨rfl, rfl, rfl, rfl, rfl⟩, ⟨rfl, rfl, rfl⟩, rfl⟩
  exact List.getElem?_set_ne (Ne.symm (List.ne_of_not_mem_cons hj))

theorem State.advance_frameBut (s : State) (n : Nat) : FrameBut [] s (s.advance n) :=
  ⟨⟨rfl, fun _ _ => rfl⟩, ⟨rfl, rfl, rfl, rfl, rfl⟩, ⟨rfl, rfl, rfl⟩, rfl⟩

/-! ### DUPd (R130) -/

theorem State.push_getElem?_sp {s : State} (h : s.sp < s.stack.length) (v : Word) :
    (s.push v).stack[s.sp]? = some v :=
  List.getElem?_set_self h

/-- The rule of DUPd, at every depth, of an instruction whose row asks for d slots and a free one. -/
theorem dupRule_of_exec {i : Instr} {d : Nat} (hlen : i.immLen = 0) (hneed : i.need = d) (hgrow : i.grow = true)
    (hexec : ∀ s, exec i s = dupSlot i d s) : DupRule i i.opcode d := by
  subst hneed
  refine ⟨encode_of_immLen_eq_zero hlen, fun s => ⟨fun hlow => ?underflow, fun hn hfull => ?overflow,
    fun hs hn hroom => ?copy⟩⟩
  case underflow =>
    exact ⟨_, (hexec s).trans (checked_of_underflow hlow), s.enterFault_faultsWith .stackUnderflow i.opcode⟩
  case overflow =>
    exact ⟨_, (hexec s).trans (checked_of_overflow hn hgrow hfull), s.enterFault_faultsWith .stackOverflow i.opcode⟩
  case copy =>
    have hsp : s.sp < s.stack.length := hs.1.symm ▸ hroom
    have hcopy : (s.push (s.fromTop i.need)).stack[s.sp]? = s.stack[s.sp - i.need]? := by
      rw [State.push_getElem?_sp hsp, State.fromTop_eq, s.slot_eq (by omega)]
    exact ⟨_, (hexec s).trans (checked_of_ok hs hn fun _ => hroom), hcopy, rfl, .of_toPc rfl, fun _ => rfl,
      s.advance_push_frameBut _ 0⟩

/-- Settles O18: each DUPd is the shared rule at its depth. -/
theorem dupCopiesSlot : Obligations.DupCopiesSlot :=
  ⟨dupRule_of_exec rfl rfl rfl exec_dup1, dupRule_of_exec rfl rfl rfl exec_dup2, dupRule_of_exec rfl rfl rfl exec_dup3⟩

/-! ### SWAPd (R134) -/

/-- Slots a and b exchanged: both are read before either is written. -/
def State.exchange (s : State) (a b : Nat) : State := (s.setSlot a (s.slot b)).setSlot b (s.slot a)

theorem swapSlots_eq (i : Instr) (d : Nat) (s : State) :
    swapSlots i d s = checked i s (.next ((s.exchange (s.sp - 1) (s.sp - 1 - d)).advance 0)) := by
  rw [Nat.sub_sub]
  rfl

theorem State.exchange_getElem?_right {s : State} {a b : Nat} (ha : a < s.stack.length) (hb : b < s.stack.length) :
    (s.exchange a b).stack[b]? = s.stack[a]? := by
  rw [s.slot_eq ha]
  exact List.getElem?_set_self (by simpa using hb)

theorem State.exchange_getElem?_left {s : State} {a b : Nat} (ha : a < s.stack.length) (hb : b < s.stack.length)
    (hab : a ≠ b) : (s.exchange a b).stack[a]? = s.stack[b]? := by
  rw [s.slot_eq hb]
  exact (List.getElem?_set_ne hab.symm).trans (List.getElem?_set_self ha)

theorem State.exchange_frameBut (s : State) (a b : Nat) : FrameBut [a, b] s (s.exchange a b) :=
  (s.setSlot_frameBut a _).trans (State.setSlot_frameBut _ b _)

/-- The rule of SWAPd, at every depth, of an instruction whose row asks for d+1 slots and no free one. -/
theorem swapRule_of_exec {i : Instr} {d : Nat} (hd : 0 < d) (hlen : i.immLen = 0) (hneed : i.need = d + 1)
    (hgrow : i.grow = false) (hexec : ∀ s, exec i s = swapSlots i d s) : SwapRule i i.opcode d := by
  refine ⟨encode_of_immLen_eq_zero hlen, fun s => ⟨fun hlow => ?underflow, fun hs hn => ?exchange⟩⟩
  case underflow =>
    exact ⟨_, (hexec s).trans (checked_of_underflow (hneed ▸ hlow)), s.enterFault_faultsWith .stackUnderflow i.opcode⟩
  case exchange =>
    have hfits : checked i s _ = .next ((s.exchange (s.sp - 1) (s.sp - 1 - d)).advance 0) :=
      checked_of_ok hs (hneed ▸ hn) (by simp [hgrow])
    obtain ⟨hstack, hsp⟩ := hs
    have ha : s.sp - 1 < s.stack.length := by omega
    have hb : s.sp - 1 - d < s.stack.length := by omega
    exact ⟨_, ((hexec s).trans (swapSlots_eq i d s)).trans hfits, State.exchange_getElem?_left ha hb (by omega),
      State.exchange_getElem?_right ha hb, rfl, .of_toPc rfl, fun _ => rfl,
      (s.exchange_frameBut _ _).trans (State.advance_frameBut _ 0)⟩

/-- Settles O19: each SWAPd is the shared rule at its depth. -/
theorem swapExchangesSlots : Obligations.SwapExchangesSlots :=
  ⟨swapRule_of_exec (by decide) rfl rfl rfl exec_swap1, swapRule_of_exec (by decide) rfl rfl rfl exec_swap2,
    swapRule_of_exec (by decide) rfl rfl rfl exec_swap3⟩

end Sys2Proof.Machine
end

section
/-! PROOF. ADD, MUL, SUB, DIV, LT, EQ, ISZERO, NOT (spec/43_arithmetic.md R140 to R149), each by the rule shared by the
binary or the unary instructions and the number its function computes. -/

namespace Sys2Proof.Machine

/-! ### The numbers the functions compute -/

/-- R143: the word subtraction wraps as the integer difference does modulo 2^256. -/
theorem toNat_sub_eq_emod (a b : Word) : (a - b).toNat = (((a.toNat : Int) - b.toNat) % 2 ^ 256).toNat := by
  rw [BitVec.toNat_sub]
  have ha := a.isLt
  have hb := b.isLt
  omega

theorem toNat_divWord (a b : Word) : (divWord a b).toNat = if b.toNat ≠ 0 then a.toNat / b.toNat else 0 := by
  by_cases hb : b = 0
  · simp [divWord, hb]
  · have hne : b.toNat ≠ 0 := fun h => hb (BitVec.eq_of_toNat_eq h)
    rw [divWord, if_neg hb, if_pos hne, BitVec.toNat_udiv]

theorem toNat_boolWord (p : Bool) : (boolWord p).toNat = if p then 1 else 0 := by
  cases p <;> rfl

theorem toNat_ltWord (a b : Word) : (ltWord a b).toNat = if a.toNat < b.toNat then 1 else 0 := by
  simp [ltWord, toNat_boolWord]

theorem toNat_eqWord (a b : Word) : (eqWord a b).toNat = if a.toNat = b.toNat then 1 else 0 := by
  simp [eqWord, toNat_boolWord, BitVec.toNat_inj]

theorem toNat_isZeroWord (a : Word) : (isZeroWord a).toNat = if a.toNat = 0 then 1 else 0 :=
  toNat_eqWord a 0

/-! ### The operand's slot -/

theorem State.slot_setFromTop_self {s : State} {d : Nat} (h : s.sp - d < s.stack.length) (v : Word) :
    (s.setFromTop d v).slot (s.sp - d) = v :=
  (s.slot_setSlot _ _ v h).trans (if_pos rfl)

theorem State.setFromTop_frameBut (s : State) (d : Nat) (v : Word) : FrameBut [s.sp - d] s (s.setFromTop d v) :=
  s.setSlot_frameBut _ v

theorem State.pop_frameBut (s : State) (n : Nat) : FrameBut [] s (s.pop n) :=
  ⟨⟨rfl, fun _ _ => rfl⟩, ⟨rfl, rfl, rfl, rfl, rfl⟩, ⟨rfl, rfl, rfl⟩, rfl⟩

theorem State.Shaped.sub_lt_length {s : State} (hs : s.Shaped) {d : Nat} (hd : 0 < d) (h : d ≤ s.sp) :
    s.sp - d < s.stack.length := by
  obtain ⟨hlength, hsp⟩ := hs
  omega

/-! ### The shared rules (R140, R147) -/

/-- The rule of an instruction whose row asks for two slots and no free one, and which runs `f`, the words' form of
the function `g` of numbers. -/
theorem binaryRule_of_exec {i : Instr} {f : Word → Word → Word} {g : Nat → Nat → Nat} (hlen : i.immLen = 0)
    (hneed : i.need = 2) (hgrow : i.grow = false) (hexec : ∀ s, exec i s = binary i f s)
    (hf : ∀ a b, (f a b).toNat = g a.toNat b.toNat) : BinaryRule i i.opcode g := by
  refine ⟨encode_of_immLen_eq_zero hlen, fun s => ⟨fun hlow => ?underflow, fun hs hn => ?result⟩⟩
  case underflow =>
    exact ⟨_, (hexec s).trans (checked_of_underflow (hneed ▸ hlow)), s.enterFault_faultsWith .stackUnderflow i.opcode⟩
  case result =>
    have hslot := State.slot_setFromTop_self (hs.sub_lt_length Nat.two_pos hn) (f (s.fromTop 1) (s.fromTop 2))
    exact ⟨_, (hexec s).trans (checked_of_ok hs (hneed ▸ hn) (by simp [hgrow])),
      (congrArg BitVec.toNat hslot).trans (hf _ _), rfl, .of_toPc rfl, fun _ => rfl,
      ((s.setFromTop_frameBut 2 _).trans (State.pop_frameBut _ 1)).trans (State.advance_frameBut _ 0)⟩

/-- The rule, in the state `s`, of an instruction whose row asks for one slot and no free one, and which runs `f`, the
words' form of the function `g` of numbers. -/
theorem unaryRule_of_exec {i : Instr} {f : Word → Word} {g : Nat → Nat} {s : State} (hneed : i.need = 1)
    (hgrow : i.grow = false) (hexec : exec i s = unary i f s) (hf : ∀ a, (f a).toNat = g a.toNat) :
    UnaryRule i i.opcode g s := by
  refine ⟨fun hempty => ?underflow, fun hs hn => ?result⟩
  case underflow =>
    have hlow : s.sp < i.need := by omega
    exact ⟨_, hexec.trans (checked_of_underflow hlow), s.enterFault_faultsWith .stackUnderflow i.opcode⟩
  case result =>
    have hslot := State.slot_setFromTop_self (hs.sub_lt_length Nat.one_pos hn) (f (s.fromTop 1))
    exact ⟨_, hexec.trans (checked_of_ok hs (hneed ▸ hn) (by simp [hgrow])),
      (congrArg BitVec.toNat hslot).trans (hf _), rfl, .of_toPc rfl, fun _ => rfl,
      (s.setFromTop_frameBut 1 _).trans (State.advance_frameBut _ 0)⟩

/-! ### An instruction the configuration lacks (R76) -/

theorem decodeOp_opcode_eq_none {cfg : Config} {i : Instr} (hlen : i.immLen = 0) (h : i.wellFormed cfg = false) :
    decodeOp cfg i.opcode = none := by
  refine Option.eq_none_iff_forall_ne_some.2 fun j hj => ?_
  obtain ⟨_, hop, hw⟩ := decodeOp_eq_some.1 hj
  rw [(opcode_eq_opcode_iff hlen).1 hop, h] at hw
  cases hw

theorem decode_opcode_unknown {cfg : Config} {i : Instr} (hlen : i.immLen = 0) (h : i.wellFormed cfg = false)
    (rest : List Byte) : decode cfg (i.opcode :: rest) = .unknown i.opcode := by
  rw [decode_cons_eq, decodeOp_opcode_eq_none hlen h]

/-! ### The instructions -/

/-- Settles O12: each is the shared binary rule with its word operation, which computes modulo 2^256. -/
theorem addMulSubModulo : Obligations.AddMulSubModulo :=
  ⟨binaryRule_of_exec rfl rfl rfl exec_add BitVec.toNat_add, binaryRule_of_exec rfl rfl rfl exec_mul BitVec.toNat_mul,
    binaryRule_of_exec rfl rfl rfl exec_sub toNat_sub_eq_emod⟩

/-- Settles O13: the shared binary rule with DIV's function. -/
theorem divFloorZeroByZero : Obligations.DivFloorZeroByZero := by
  unfold Obligations.DivFloorZeroByZero
  exact binaryRule_of_exec rfl rfl rfl exec_div toNat_divWord

/-- Settles O14: the shared binary rule with the comparisons' functions. -/
theorem ltEqLeaveZeroOrOne : Obligations.LtEqLeaveZeroOrOne :=
  ⟨binaryRule_of_exec rfl rfl rfl exec_lt toNat_ltWord, binaryRule_of_exec rfl rfl rfl exec_eq toNat_eqWord⟩

/-- Settles O15: the shared unary rule with ISZERO's function. -/
theorem iszeroInPlace : Obligations.IszeroInPlace :=
  ⟨encode_of_immLen_eq_zero rfl, fun s => unaryRule_of_exec rfl rfl (exec_iszero s) toNat_isZeroWord⟩

/-- Settles O16: the shared unary rule with the complement, and the table's condition on byte 0x19. -/
theorem notComplementsInPlace : Obligations.NotComplementsInPlace :=
  ⟨encode_of_immLen_eq_zero rfl, fun s _ => unaryRule_of_exec rfl rfl (exec_not s) fun _ => BitVec.toNat_not,
    fun _ rest h => decode_opcode_unknown (i := .not) rfl h rest⟩

end Sys2Proof.Machine
end

section
/-! PROOF. MSTORE and MLOAD (spec/44_memory_ops.md R160, R163): the bytes they write and read, and their checks. -/

namespace Sys2Proof.Machine

/-! ### The bytes of the two cells MSTORE writes -/

theorem read_storeWord_first {m : Memory} (h : m.wf = true) (c : Nat) (v : Word) {k : Nat} (hk : k < 16) :
    (storeWord m c v).read (16 * c + k) = wordByte v k := by
  rw [read_storeWord h, if_pos (by omega), Nat.add_sub_cancel_left]

theorem read_storeWord_second {m : Memory} (h : m.wf = true) (c : Nat) (v : Word) {k : Nat} (hk : k < 16) :
    (storeWord m c v).read (16 * (c + 1) + k) = wordByte v (16 + k) := by
  rw [read_storeWord h, if_pos (by omega), show 16 * (c + 1) + k - 16 * c = 16 + k by omega]

theorem read_storeWord_outside {m : Memory} (h : m.wf = true) (c : Nat) (v : Word) {a : Nat}
    (ha : a < 16 * c ∨ 16 * c + 32 ≤ a) : (storeWord m c v).read a = m.read a := by
  rw [read_storeWord h, if_neg (by omega)]

/-! ### Frame and stack checks -/

theorem State.setMem_frameBut (s : State) (m : Memory) : FrameBut [] s (s.setMem m) :=
  ⟨⟨rfl, fun _ _ => rfl⟩, ⟨rfl, rfl, rfl, rfl, rfl⟩, ⟨rfl, rfl, rfl⟩, rfl⟩

theorem stackFits_mstore {s : State} (hs : s.Shaped) (hn : 2 ≤ s.sp) : StackFits .mstore s := ⟨hs, hn, nofun⟩

theorem stackFits_mload {s : State} (hs : s.Shaped) (hn : 1 ≤ s.sp) : StackFits .mload s := ⟨hs, hn, nofun⟩

/-! ### The instructions -/

/-- The memory MSTORE leaves, given by its bytes alone. -/
theorem execMstore_writes {s : State} (hf : StackFits .mstore s) (hwf : s.mem.wf = true)
    (hr : (s.fromTop 1).toNat / 16 + 1 < s.cfg.memCells) :
    ∃ m : Memory, execMstore s = .next (((s.setMem m).pop 2).advance 0) ∧
      (∀ k, k < 16 →
        m.read (16 * ((s.fromTop 1).toNat / 16) + k) = wordByte (s.fromTop 2) k ∧
        m.read (16 * ((s.fromTop 1).toNat / 16 + 1) + k) = wordByte (s.fromTop 2) (16 + k)) ∧
      ∀ a, a < 16 * ((s.fromTop 1).toNat / 16) ∨ 16 * ((s.fromTop 1).toNat / 16) + 32 ≤ a → m.read a = s.mem.read a :=
  ⟨_, execMstore_stores hf hr, fun _ hk => ⟨read_storeWord_first hwf _ _ hk, read_storeWord_second hwf _ _ hk⟩,
    fun _ ha => read_storeWord_outside hwf _ _ ha⟩

/-- Settles O20: the stack check, the range check, then the two cells' writes with the pop and the advance, each of
which leaves the rest as it was. -/
theorem mstoreWritesTwoCells : Obligations.MstoreWritesTwoCells := by
  refine ⟨encode_of_immLen_eq_zero rfl, fun s => ⟨fun hlow => ?underflow, fun hs hn hout => ?outOfRange,
    fun hs hwf hn hin => ?store⟩⟩
  case underflow =>
    exact ⟨_, (exec_mstore s).trans (checked_of_underflow hlow), s.enterFault_faultsWith .stackUnderflow 0x52⟩
  case outOfRange =>
    exact ⟨_, (exec_mstore s).trans (execMstore_out (stackFits_mstore hs hn) hout),
      s.enterFault_faultsWith .memoryOutOfRange 0x52⟩
  case store =>
    obtain ⟨m, hstore, hcells, hothers⟩ := execMstore_writes (stackFits_mstore hs hn) hwf hin
    exact ⟨_, (exec_mstore s).trans hstore, hcells, hothers, rfl, .of_toPc rfl,
      ((s.setMem_frameBut m).trans (State.pop_frameBut _ 2)).trans (State.advance_frameBut _ 0)⟩

theorem toNat_zext256_byte (b : Byte) : (zext256 b).toNat = b.toNat :=
  BitVec.toNat_setWidth_of_le (by decide)

/-- Settles O21: the stack check, the range check, then the byte of the second cell written over the top. -/
theorem mloadReadsOneByte : Obligations.MloadReadsOneByte := by
  refine ⟨encode_of_immLen_eq_zero rfl, fun s _ => ⟨fun hempty => ?underflow, fun hs hn hout => ?outOfRange,
    fun hs hn hin => ?load⟩⟩
  case underflow =>
    have hlow : s.sp < Instr.mload.need := Nat.lt_of_le_of_lt (Nat.le_of_eq hempty) Nat.one_pos
    exact ⟨_, (exec_mload s).trans (checked_of_underflow hlow), s.enterFault_faultsWith .stackUnderflow 0x51⟩
  case outOfRange =>
    exact ⟨_, (exec_mload s).trans (execMload_out (stackFits_mload hs hn) hout),
      s.enterFault_faultsWith .memoryOutOfRange 0x51⟩
  case load =>
    have hload := execMload_reads (stackFits_mload hs hn) hin
    rw [s.memRead_eq] at hload
    have hslot := State.slot_setFromTop_self (hs.sub_lt_length Nat.one_pos hn)
      (zext256 (s.mem.read (16 * ((s.fromTop 1).toNat / 16 + 1) + s.cfg.mloadByteIndex.val)))
    exact ⟨_, (exec_mload s).trans hload, (congrArg BitVec.toNat hslot).trans (toNat_zext256_byte _), rfl,
      .of_toPc rfl, fun _ => rfl, (s.setFromTop_frameBut 1 _).trans (State.advance_frameBut _ 0)⟩

end Sys2Proof.Machine
end

section
/-! PROOF. JUMP, JUMPI and JUMPDEST (spec/45_control.md R170 to R176): the two jumps by the rule of a jump to be taken,
which is said once. -/

namespace Sys2Proof.Machine

/-! ### A jump to be taken (R174) -/

theorem State.setPc_frameBut (s : State) (p : Nat) : FrameBut [] s (s.setPc p) :=
  ⟨⟨rfl, fun _ _ => rfl⟩, ⟨rfl, rfl, rfl, rfl, rfl⟩, ⟨rfl, rfl, rfl⟩, rfl⟩

/-- A destination that is not rejected resolves: to itself, or to CODE_LEN from past the end. -/
theorem State.resolveTarget_of_not_rejected {s : State} {dest : Word} (h : ¬ TargetRejected s dest.toNat) :
    s.resolveTarget dest = some (if dest.toNat < s.codeLen then dest.toNat else s.codeLen) := by
  obtain ⟨p, hp⟩ := Option.ne_none_iff_exists'.1 (mt State.resolveTarget_eq_none_iff.1 h)
  rw [hp, State.resolveTarget_eq hp]

theorem jumpTo_of_rejected (i : Instr) (n : Nat) {s : State} {dest : Word} (h : TargetRejected s dest.toNat) :
    jumpTo i dest n s = .next (s.enterFault .invalidJumpTarget i.opcode) := by
  simp [jumpTo, State.resolveTarget_eq_none_iff.2 h, raise]

theorem jumpTo_of_not_rejected (i : Instr) (n : Nat) {s : State} {dest : Word} (h : ¬ TargetRejected s dest.toNat) :
    jumpTo i dest n s =
      .next ((s.pop n).setPc (if dest.toNat < s.codeLen then dest.toNat else s.codeLen)) := by
  simp [jumpTo, State.resolveTarget_of_not_rejected h]

/-- The rule of a jump, in a state where it comes down to `jumpTo` with the top as its destination. -/
theorem takenRule_of_exec {i : Instr} {n : Nat} {s : State} (hexec : exec i s = jumpTo i (s.fromTop 1) n s) :
    TakenRule i i.opcode n s := by
  refine ⟨fun hrej => ?rejected, fun hok => ?resolved⟩
  case rejected =>
    exact ⟨_, hexec.trans (jumpTo_of_rejected i n hrej), s.enterFault_faultsWith .invalidJumpTarget i.opcode⟩
  case resolved =>
    exact ⟨_, hexec.trans (jumpTo_of_not_rejected i n hok), .of_toPc rfl, rfl, fun _ => rfl,
      (s.pop_frameBut n).trans (State.setPc_frameBut _ _)⟩

/-! ### The stack checks passed (R170, R172) -/

theorem stackFits_jump {s : State} (hs : s.Shaped) (hn : 1 ≤ s.sp) : StackFits .jump s := ⟨hs, hn, nofun⟩

theorem stackFits_jumpi {s : State} (hs : s.Shaped) (hn : 2 ≤ s.sp) : StackFits .jumpi s := ⟨hs, hn, nofun⟩

theorem execJump_jumps {s : State} (hf : StackFits .jump s) : execJump s = jumpTo .jump (s.fromTop 1) 1 s :=
  checked_fits hf

theorem execJumpi_jumps {s : State} (hf : StackFits .jumpi s) (hc : s.fromTop 2 ≠ 0) :
    execJumpi s = jumpTo .jumpi (s.fromTop 1) 2 s :=
  (checked_fits hf).trans (if_pos (bne_iff_ne.2 hc))

theorem execJumpi_fallsThrough {s : State} (hf : StackFits .jumpi s) (hc : s.fromTop 2 = 0) :
    execJumpi s = .next ((s.pop 2).advance 0) :=
  (checked_fits hf).trans (if_neg fun h => bne_iff_ne.1 h hc)

/-! ### The instructions -/

/-- Settles O22: the stack check, then by the condition the fall-through, which looks at no destination, or the rule of
a jump to be taken. -/
theorem jumpiTakenIffNonzero : Obligations.JumpiTakenIffNonzero := by
  refine ⟨encode_of_immLen_eq_zero rfl, fun s => ⟨fun hlow => ?underflow, fun hs hn hzero => ?notTaken,
    fun hs hn hnonzero => ?taken⟩⟩
  case underflow =>
    exact ⟨_, (exec_jumpi s).trans (checked_of_underflow hlow), s.enterFault_faultsWith .stackUnderflow 0x57⟩
  case notTaken =>
    exact ⟨_, (exec_jumpi s).trans (execJumpi_fallsThrough (stackFits_jumpi hs hn) hzero), .of_toPc rfl, rfl,
      fun _ => rfl, (s.pop_frameBut 2).trans (State.advance_frameBut _ 0)⟩
  case taken =>
    exact takenRule_of_exec ((exec_jumpi s).trans (execJumpi_jumps (stackFits_jumpi hs hn) hnonzero))

/-- Settles O23: the stack check, then the rule of a jump to be taken. -/
theorem jumpGoesToTarget : Obligations.JumpGoesToTarget := by
  refine ⟨encode_of_immLen_eq_zero rfl, fun s _ => ⟨fun hempty => ?underflow, fun hs hn => ?taken⟩⟩
  case underflow =>
    have hlow : s.sp < Instr.jump.need := Nat.lt_of_le_of_lt (Nat.le_of_eq hempty) Nat.one_pos
    exact ⟨_, (exec_jump s).trans (checked_of_underflow hlow), s.enterFault_faultsWith .stackUnderflow 0x56⟩
  case taken =>
    exact takenRule_of_exec ((exec_jump s).trans (execJump_jumps (stackFits_jump hs hn)))

/-- Settles O24: JUMPDEST is the advance alone, whose frame leaves the rest as it was. -/
theorem jumpdestOnlyAdvances : Obligations.JumpdestOnlyAdvances :=
  ⟨encode_of_immLen_eq_zero rfl, fun s =>
    ⟨_, exec_jumpdest s, .of_toPc rfl, rfl, fun _ => rfl, s.advance_frameBut 0⟩⟩

end Sys2Proof.Machine
end

section
/-! PROOF. CALLDATALOAD and CALLDATASIZE (spec/46_calldata.md R180 to R183): the load is the shared unary rule with the
call-data word as its function, the size a push. -/

namespace Sys2Proof.Machine

/-! ### The bytes of a call-data word (R180, R181) -/

/-- R180: inside the call data its byte, past the end 0. -/
theorem State.calldataByte_eq (s : State) (a : Nat) :
    s.calldataByte a = if h : a < s.calldata.length then s.calldata[a] else 0 := by
  by_cases h : a < s.calldata.length <;> simp [State.calldataByte, h]

theorem State.wordByte_calldataWord (s : State) (off : Nat) {k : Nat} (hk : k < 32) :
    wordByte (s.calldataWord off) k = s.calldataByte (off + k) := by
  have hbyte := wordByte_wordOfBytes ((List.range 32).map fun k => s.calldataByte (off + k)) (by simp) k hk
  rw [List.getElem?_map, List.getElem?_range hk] at hbyte
  exact (Option.some.inj hbyte).symm

/-! ### The instructions -/

/-- Settles O25: the shared unary rule, whose function here reads the word from the state's own call data; the word is
then read byte by byte. -/
theorem calldataloadZeroFills : Obligations.CalldataloadZeroFills := by
  refine ⟨encode_of_immLen_eq_zero rfl, fun s => ?_⟩
  obtain ⟨hunderflow, hload⟩ : UnaryRule .calldataload 0x35 (fun off => (s.calldataWord off).toNat) s :=
    unaryRule_of_exec rfl rfl (exec_calldataload s) fun _ => rfl
  refine ⟨hunderflow, fun hs hn => ?_⟩
  obtain ⟨t, hexec, hword, hframe⟩ := hload hs hn
  refine ⟨t, hexec, fun k hk => ?_, hframe⟩
  rw [BitVec.eq_of_toNat_eq hword, s.wordByte_calldataWord _ hk, s.calldataByte_eq]

/-- Settles O26: the overflow check, then the push of the length, which a slot holds whole. -/
theorem calldatasizePushesLength : Obligations.CalldatasizePushesLength := by
  refine ⟨encode_of_immLen_eq_zero rfl, fun s => ⟨fun hfull => ?overflow, fun hs hroom hlen => ?push⟩⟩
  case overflow =>
    exact ⟨_, (exec_calldatasize s).trans (checked_of_overflow (Nat.zero_le _) rfl hfull),
      s.enterFault_faultsWith .stackOverflow 0x36⟩
  case push =>
    have hslot := State.slot_push_self (hs.1.symm ▸ hroom) (BitVec.ofNat 256 s.calldataLen)
    exact ⟨_, (exec_calldatasize s).trans (checked_of_ok hs (Nat.zero_le _) fun _ => hroom),
      (congrArg BitVec.toNat hslot).trans (Nat.mod_eq_of_lt hlen), rfl, .of_toPc rfl, fun _ => rfl,
      s.advance_push_frameBut _ 0⟩

end Sys2Proof.Machine
end

section
/-! PROOF. The halting instructions and the unknown opcode (spec/47_halt.md R190 to R195): each is one entry of a halt,
or of a fault under STRICT_UNKNOWN. -/

namespace Sys2Proof.Machine

/-! ### STOP, RETURN, REVERT and INVALID (R190 to R194) -/

/-- An instruction whose whole rule is a halt is one byte, and in every state the entry of that halt. -/
theorem haltRule_of_exec {i : Instr} {c : HaltCode} (hlen : i.immLen = 0) (hexec : ∀ s, exec i s = halt c i s) :
    encode i = [i.opcode] ∧ ∀ s : State, ∃ t, exec i s = .next t ∧ HaltsWith c i.opcode s t :=
  ⟨encode_of_immLen_eq_zero hlen, fun s => ⟨_, hexec s, s.enterHalt_haltsWith c i.opcode⟩⟩

/-- Settles O27: each of the four is a halt with its own code. -/
theorem haltingInstructionsHalt : Obligations.HaltingInstructionsHalt :=
  List.forall_mem_cons.2 ⟨haltRule_of_exec rfl exec_stop, List.forall_mem_cons.2 ⟨haltRule_of_exec rfl exec_ret,
    List.forall_mem_cons.2 ⟨haltRule_of_exec rfl exec_revert,
      List.forall_mem_singleton.2 (haltRule_of_exec rfl exec_invalid)⟩⟩⟩

/-! ### The unknown opcode (R195) -/

/-- The decoder finds no row for exactly the bytes that are not recognised (R76). -/
theorem decodeOp_eq_none_iff {cfg : Config} {b : Byte} : decodeOp cfg b = none ↔ ¬ Recognised cfg b := by
  refine ⟨not_recognised_of_decodeOp, fun hunknown => Option.eq_none_iff_forall_ne_some.2 fun i hi => ?_⟩
  obtain ⟨_, hop, hw⟩ := decodeOp_eq_some.1 hi
  exact hunknown (recognised_iff.2 ⟨i, hop, hw⟩)

/-- A step that fetches an unrecognised byte looks at no stack and at no byte after it. -/
theorem step_unknown {s : State} {b : Byte} (hr : s.status = .running) (hop : s.code[s.pc]? = some b)
    (hunknown : ¬ Recognised s.cfg b) : step s = unknownOpcode b (s.emit b) := by
  obtain ⟨hp, hdrop⟩ := s.code_drop hop
  rw [step_running hr, s.fetch_inside hp, hdrop, decode_cons_eq, decodeOp_eq_none_iff.2 hunknown]

theorem unknownOpcode_halts {s : State} (b : Byte) (h : s.cfg.strictUnknown = false) :
    unknownOpcode b s = .next (s.enterHalt .unknownOpcode b) :=
  if_neg (Bool.eq_false_iff.1 h)

theorem unknownOpcode_faults {s : State} (b : Byte) (h : s.cfg.strictUnknown = true) :
    unknownOpcode b s = .next (s.enterFault .unknownOpcode b) := if_pos h

theorem State.emit_enterHalt_restore (s : State) (c : HaltCode) (op : Byte) :
    { (s.emit op).enterHalt c op with trace := s.trace } = s.enterHalt c op :=
  congrArg (·.enterHalt c op) (s.emit_restore op)

/-- Settles O9, by STRICT_UNKNOWN: the step is the entry of the halt or of the fault, after the fetch's trace event. -/
theorem unknownOpcodeEndsTheRun : Obligations.UnknownOpcodeEndsTheRun := by
  intro s b hr hop hunknown
  have hstep := step_unknown hr hop hunknown
  have hcfg : (s.emit b).cfg = s.cfg := s.emit_cfg b
  cases hstrict : s.cfg.strictUnknown with
  | false =>
    refine ⟨_, hstep.trans (unknownOpcode_halts b (hcfg ▸ hstrict)), fun _ => ?_, nofun⟩
    rw [State.emit_enterHalt_restore]
    exact s.enterHalt_haltsWith .unknownOpcode b
  | true =>
    refine ⟨_, hstep.trans (unknownOpcode_faults b (hcfg ▸ hstrict)), nofun, fun _ => ?_⟩
    rw [State.emit_enterFault_restore]
    exact s.enterFault_faultsWith .unknownOpcode b

end Sys2Proof.Machine
end

section
/-! PROOF. Fault entry and halt entry (spec/60_exceptions.md R201, R202, R211): what ends a run records why and where,
and changes no data. -/

namespace Sys2Proof.Machine

/-! ### StackUnderflow (R202) -/

/-- An instruction that needs a slot makes the underflow check before anything else. -/
theorem exec_of_underflow {i : Instr} {s : State} (h : s.sp < i.need) :
    exec i s = .next (s.enterFault .stackUnderflow i.opcode) := by
  cases i
  case stop | ret | revert | invalid | jumpdest => exact absurd h (Nat.not_lt_zero _)
  all_goals exact checked_of_underflow h

/-- Settles O37: the table of needs gives the instruction's own, so the underflow check fails, and its fault entry
changes nothing else. -/
theorem underflowIsPrecise : Obligations.UnderflowIsPrecise := by
  intro i op n s _ henc hneed hlow
  obtain ⟨rfl, _⟩ := List.cons.inj henc
  have hunder : s.sp < i.need := exists_slotNeeds_iff.1 ⟨(i.opcode, n), hneed, rfl, hlow⟩
  exact ⟨_, exec_of_underflow hunder, s.enterFault_faultsWith .stackUnderflow i.opcode⟩

/-! ### How a step can end the run (R201, R211) -/

/-- A running step is the EndOfCode halt, or by the byte it fetched the entry of another halt or of a fault, or the run
goes on. -/
theorem step_end_cases {s t : State} (hr : s.status = .running) (h : step s = .next t) :
    (s.codeLen ≤ s.pc ∧ t = s.enterHalt .endOfCode 0) ∨
    (∃ c op, c ≠ .none ∧ c ≠ .endOfCode ∧ s.code[s.pc]? = some op ∧ t = (s.emit op).enterHalt c op) ∨
    (∃ f op, f ≠ .none ∧ s.code[s.pc]? = some op ∧ t = (s.emit op).enterFault f op) ∨
    t.status = .running := by
  rcases step_cases hr h with hpast | ⟨op, hop, _, ⟨_, ht⟩ | ⟨_, ht⟩⟩ | ⟨i, hop, _, _, hexec⟩
  · exact .inl hpast
  · exact .inr (.inl ⟨.unknownOpcode, op, nofun, nofun, hop, ht⟩)
  · exact .inr (.inr (.inl ⟨.unknownOpcode, op, nofun, hop, ht⟩))
  · rcases exec_next hexec with ⟨f, hf, _, ht⟩ | ⟨c, hc, hend, _, ht⟩ | hdone
    · exact .inr (.inr (.inl ⟨f, i.opcode, hf, hop, ht⟩))
    · exact .inr (.inl ⟨c, i.opcode, hc, hend, hop, ht⟩)
    · exact .inr (.inr (.inr (by rw [hdone.status_eq, State.emit_status, hr])))

/-- Settles O38: the one end of a step with STATUS = Faulted is a fault entry at the byte fetched, after the fetch's
trace event. -/
theorem faultsArePrecise : Obligations.FaultsArePrecise := by
  intro s t hr h hfaulted
  rcases step_end_cases hr h with ⟨_, rfl⟩ | ⟨c, op, _, _, _, rfl⟩ | ⟨f, op, hf, hop, rfl⟩ | hrun
  · cases hfaulted
  · cases hfaulted
  · refine ⟨f, op, hf, hop, ?_⟩
    rw [State.emit_enterFault_restore]
    exact s.enterFault_faultsWith f op
  · cases hrun.symm.trans hfaulted

/-- Settles O40: a step with STATUS = Halted is the EndOfCode halt, past the end of the code, or the entry of another
halt at the byte fetched, after the fetch's trace event. -/
theorem haltsChangeNoData : Obligations.HaltsChangeNoData := by
  intro s t hr h hhalted
  rcases step_end_cases hr h with ⟨hpast, rfl⟩ | ⟨c, op, hc, hend, hop, rfl⟩ | ⟨f, op, _, _, rfl⟩ | hrun
  · exact ⟨.endOfCode, 0, nofun, fun _ => ⟨rfl, hpast⟩, fun hne => absurd rfl hne,
      s.enterHalt_haltsWith .endOfCode 0⟩
  · refine ⟨c, op, hc, fun he => absurd he hend, fun _ => hop, ?_⟩
    rw [State.emit_enterHalt_restore]
    exact s.enterHalt_haltsWith c op
  · cases hhalted
  · cases hrun.symm.trans hhalted

end Sys2Proof.Machine
end

section
/-! PROOF. The encoder and the decoder undo each other, and what the decoder answers where it reads no instruction
(spec/30_encoding.md R70 to R78). -/

namespace Sys2Proof.Machine

/-! ### The round trip (R70 to R76) -/

/-- What the decoder answers on a byte whose row it finds, with the whole immediate after it. -/
theorem decode_cons_of_decodeOp {cfg : Config} {b : Byte} {i : Instr} {imm : List Byte} (rest : List Byte)
    (h : decodeOp cfg b = some i) (himm : imm.length = i.immLen) :
    decode cfg (b :: (imm ++ rest)) = .instr (i.withImm (beNat imm)) rest := by
  simp [decode_cons_eq, h, ← himm]

/-- Settles O1: the opcode selects the instruction's row, and the immediate's bytes spell its value, which its N bytes
hold whole. -/
theorem decodeOfEncode : Obligations.DecodeOfEncode := by
  intro cfg i rest hw
  have hvalue : beNat (beBytes i.immLen i.immValue) = i.immValue := by
    rw [beNat_beBytes, Nat.mod_eq_of_lt i.immValue_lt]
  have hrow := decode_cons_of_decodeOp (imm := beBytes i.immLen i.immValue) rest (decodeOp_opcode hw) (by simp)
  rw [hvalue, Instr.withImm_withImm, Instr.withImm_immValue] at hrow
  exact hrow

/-- Settles O2: the first byte is the opcode, and the bytes the immediate is read from are those that spell it. -/
theorem encodeOfDecode : Obligations.EncodeOfDecode := by
  intro cfg bytes i rest h
  cases bytes with
  | nil => cases h
  | cons b bs =>
    obtain ⟨rfl, hw⟩ := decode_instr_head h
    refine ⟨?_, hw⟩
    obtain ⟨hlen, rfl⟩ : i.immLen ≤ bs.length ∧ rest = bs.drop i.immLen := by
      rcases decode_cons cfg i.opcode bs with ⟨_, h'⟩ | ⟨j, _, _, h'⟩ | ⟨j, _, hl, h'⟩ <;> cases h'.symm.trans h
      exact ⟨(j.withImm_immLen _).symm ▸ hl, by rw [j.withImm_immLen]⟩
    have himm : beBytes i.immLen i.immValue = bs.take i.immLen := by
      rw [decode_instr_immValue h, beBytes_beNat _ _ (List.length_take_of_le hlen)]
    rw [encode, himm, List.cons_append, List.take_append_drop]

/-! ### Where no instruction is read (R76, R78) -/

theorem decode_eq_unknown_iff {cfg : Config} {b : Byte} {rest : List Byte} :
    decode cfg (b :: rest) = .unknown b ↔ ¬ Recognised cfg b := by
  rw [← decodeOp_eq_none_iff]
  rcases decode_cons cfg b rest with ⟨hop, h⟩ | ⟨i, hop, _, h⟩ | ⟨i, hop, _, h⟩ <;> simp [hop, h]

theorem recognised_thisHardware_iff {b : Byte} :
    Recognised Config.thisHardware b ↔ b ∈ alwaysBytes ++ [0x19, 0x56, 0x51] := by
  simp [Recognised, Config.thisHardware]

theorem ofNat_mem_iff {bytes : List Byte} {n : Nat} (hn : n < 256) :
    BitVec.ofNat 8 n ∈ bytes ↔ n ∈ bytes.map BitVec.toNat := by
  have hnumber : (BitVec.ofNat 8 n).toNat = n := Nat.mod_eq_of_lt hn
  constructor
  · exact fun h => List.mem_map.2 ⟨_, h, hnumber⟩
  · intro h
    obtain ⟨b, hb, hbn⟩ := List.mem_map.1 h
    exact (BitVec.eq_of_toNat_eq (hnumber.trans hbn.symm)) ▸ hb

/-- Each of the numbers left out, none of them twice, takes one from the list. -/
theorem length_filter_not_mem {l xs : List Nat} (hl : l.Nodup) (hxs : xs.Nodup) (hsub : ∀ x ∈ xs, x ∈ l) :
    (l.filter fun n => decide (n ∉ xs)).length = l.length - xs.length := by
  induction xs generalizing l with
  | nil =>
    rw [List.filter_eq_self.2 fun _ _ => decide_eq_true List.not_mem_nil]
    rfl
  | cons x xs ih =>
    obtain ⟨hx, hxs'⟩ := List.nodup_cons.1 hxs
    have hsplit : (l.filter fun n => decide (n ∉ x :: xs)) = (l.erase x).filter fun n => decide (n ∉ xs) := by
      rw [hl.erase_eq_filter, List.filter_filter]
      refine List.filter_congr fun n _ => ?_
      by_cases hn : n = x <;> simp [hn]
    have hrest : ∀ y ∈ xs, y ∈ l.erase x := by
      intro y hy
      have hne : y ≠ x := by
        rintro rfl
        exact hx hy
      exact (List.mem_erase_of_ne hne).2 (hsub y (List.mem_cons_of_mem x hy))
    rw [hsplit, ih (hl.erase x) hxs' hrest, List.length_erase_of_mem (hsub x List.mem_cons_self), List.length_cons,
      Nat.sub_sub, Nat.add_comm]

/-- Of the 256 bytes those not on a list without repetition are 256 less its length. -/
theorem count_bytes_not_mem {bytes : List Byte} (h : (bytes.map BitVec.toNat).Nodup) :
    ((List.range 256).filter fun n => decide (BitVec.ofNat 8 n ∉ bytes)).length = 256 - bytes.length := by
  have hnumbers : ((List.range 256).filter fun n => decide (BitVec.ofNat 8 n ∉ bytes)) =
      (List.range 256).filter fun n => decide (n ∉ bytes.map BitVec.toNat) :=
    List.filter_congr fun n hn => decide_eq_decide.2 (not_congr (ofNat_mem_iff (List.mem_range.1 hn)))
  have hsub : ∀ n ∈ bytes.map BitVec.toNat, n ∈ List.range 256 := by
    intro n hn
    obtain ⟨b, _, rfl⟩ := List.mem_map.1 hn
    exact List.mem_range.2 b.isLt
  rw [hnumbers, length_filter_not_mem List.nodup_range h hsub, List.length_range, List.length_map]

/-- Settles O3: the bytes without a row are those not recognised; this hardware recognises 29, no two alike. -/
theorem unknownBytesAreTheUnlisted : Obligations.UnknownBytesAreTheUnlisted := by
  refine ⟨fun cfg b rest => decode_eq_unknown_iff, ?_⟩
  simp only [decode_eq_unknown_iff, recognised_thisHardware_iff]
  exact count_bytes_not_mem (by decide)

/-- Settles O4: the decoder reports the opcode's own PUSH, and every PUSH opcode has one. -/
theorem onlyPushIsCutShort : Obligations.OnlyPushIsCutShort := by
  intro cfg b rest
  constructor
  · rintro ⟨i, h⟩
    obtain ⟨rfl, _, hshort⟩ := decode_truncated_head h
    exact ⟨i.immLen, opcode_mem_pushWidths_iff.2 ⟨Nat.ne_zero_of_lt hshort, rfl⟩, hshort⟩
  · rintro ⟨n, hpush, hshort⟩
    obtain ⟨i, rfl, hw⟩ := recognised_iff.1 (recognised_of_mem_pushWidths (cfg := cfg) hpush)
    obtain ⟨_, rfl⟩ := opcode_mem_pushWidths_iff.1 hpush
    refine ⟨i.withImm 0, ?_⟩
    rw [decode_cons_eq, decodeOp_opcode hw]
    exact if_pos ((i.withImm_immLen 0).symm ▸ hshort)

/-! ### Words written out -/

/-- A byte string that is an encoding followed by `rest` decodes to the instruction. -/
theorem decode_of_eq_encode {cfg : Config} {i : Instr} {bytes rest : List Byte} (hw : i.wellFormed cfg = true)
    (h : bytes = encode i ++ rest) : decode cfg bytes = .instr i rest := h ▸ decodeOfEncode cfg i rest hw

/-- Settles O5: each word is the encoding of its instruction. -/
theorem sampleWordsDecode : Obligations.SampleWordsDecode :=
  ⟨decode_of_eq_encode rfl (by decide), decode_of_eq_encode rfl (by decide), decode_of_eq_encode rfl (by decide),
    decode_of_eq_encode rfl (by decide), decode_of_eq_encode rfl rfl, decode_of_eq_encode rfl rfl,
    decode_of_eq_encode rfl rfl, decode_of_eq_encode rfl rfl, decode_of_eq_encode rfl rfl,
    decode_of_eq_encode rfl rfl, decode_of_eq_encode rfl rfl⟩

end Sys2Proof.Machine
end

section
/-! PROOF. The invariant: it holds at reset, every step keeps it, and so every state of every run meets it
(spec/10_state.md sections 1 to 7, spec/60_exceptions.md section 1). -/

namespace Sys2Proof.Machine

/-! ### What the invariant says under each STATUS -/

/-- In a running state no outcome is recorded and the program counter is in the code or at its end. -/
theorem State.Inv.running {s : State} (h : s.Inv) (hr : s.status = .running) :
    s.haltCode = .none ∧ s.faultCode = .none ∧ s.endPc = 0 ∧ s.endOpcode = 0 ∧ s.pc ≤ s.codeLen := by
  have hend := h.ended
  rw [State.EndOk, hr] at hend
  exact hend

theorem State.Inv.codeLen_lt {s : State} (h : s.Inv) : s.codeLen < 2 ^ s.cfg.pcWidth :=
  State.InputsOk.codeLen_lt h.inputs

/-! ### The ends of a step keep it -/

theorem State.Inv.emit {s : State} (h : s.Inv) (op : Byte) : (s.emit op).Inv := by
  unfold State.emit
  split
  · exact ⟨h.shaped, h.inputs, h.mem, h.width, h.ended⟩
  · exact h

/-- R211: halt entry, where the outcome it records is one R29 and R31 allow at the current program counter. -/
theorem State.Inv.enterHalt {s : State} (h : s.Inv) (hr : s.status = .running) {c : HaltCode} {op : Byte}
    (hc : c ≠ .none) (hend : c = .endOfCode → s.codeLen ≤ s.pc ∧ op = 0)
    (hbyte : c ≠ .endOfCode → s.codeByte s.pc = some op)
    (hstrict : c = .unknownOpcode → s.cfg.strictUnknown = false) : (s.enterHalt c op).Inv := by
  obtain ⟨_, hfault, _, _, hpc⟩ := h.running hr
  have hlen : s.toPc s.codeLen = s.codeLen := s.toPc_of_lt h.codeLen_lt
  exact
    { shaped := h.shaped
      inputs := h.inputs
      mem := h.mem
      width := ⟨s.toPc_lt _, h.width.1⟩
      ended := ⟨hc, hfault, hlen, fun he => ⟨Nat.le_antisymm hpc (hend he).1, (hend he).2⟩, hbyte, hstrict⟩ }

/-- R201: fault entry at a byte of the code. -/
theorem State.Inv.enterFault {s : State} (h : s.Inv) (hr : s.status = .running) {f : FaultCode} {op : Byte}
    (hf : f ≠ .none) (hbyte : s.codeByte s.pc = some op)
    (hstrict : f = .unknownOpcode → s.cfg.strictUnknown = true) : (s.enterFault f op).Inv := by
  obtain ⟨hhalt, _⟩ := h.running hr
  exact
    { shaped := h.shaped
      inputs := h.inputs
      mem := h.mem
      width := ⟨h.width.1, h.width.1⟩
      ended := ⟨hf, hhalt, rfl, hbyte, hstrict⟩ }

/-- Memory after an instruction completes: as before, or with MSTORE's two cells, which exist. -/
theorem Completes.memOk {i : Instr} {s t : State} (h : Completes i s t) (hm : s.MemOk) :
    t.mem.wf = true ∧ t.mem.below s.cfg.memBytes = true := by
  obtain ⟨hwf, hbelow⟩ := hm
  by_cases hi : i = .mstore
  · obtain ⟨c, v, hc, hmem⟩ := h.stored hi
    have hsize : 16 * (c + 2) ≤ s.cfg.memBytes := by
      rw [Config.memBytes, Config.cellBytes]
      omega
    rw [hmem]
    exact ⟨storeWord_wf hwf c v, storeWord_below hbelow v hsize⟩
  · rw [h.memory hi]
    exact ⟨hwf, hbelow⟩

theorem Completes.pc_le_codeLen {i : Instr} {s t : State} (h : Completes i s t) (hp : s.pc < s.codeLen)
    (hw : s.codeLen < 2 ^ s.cfg.pcWidth) : t.pc ≤ s.codeLen := by
  rcases h.pc_eq hp hw with ⟨hpc, _⟩ | ⟨_, hpc⟩
  · have himm := h.immediate
    omega
  · rw [hpc]
    split <;> omega

/-- An instruction that completes at a byte of the code. -/
theorem State.Inv.completes {i : Instr} {s t : State} (h : s.Inv) (hr : s.status = .running) (hp : s.pc < s.codeLen)
    (hc : Completes i s t) : t.Inv := by
  obtain ⟨hstack, hsp⟩ := h.shaped
  obtain ⟨hhalt, hfault, hendPc, hendOp, _⟩ := h.running hr
  have hpc : t.pc ≤ s.codeLen := hc.pc_le_codeLen hp h.codeLen_lt
  rw [hc.frame]
  exact
    { shaped := ⟨hc.length.trans hstack, hc.bound hsp⟩
      inputs := h.inputs
      mem := hc.memOk h.mem
      width := ⟨Nat.lt_of_le_of_lt hpc h.codeLen_lt, h.width.2⟩
      ended := by
        rw [State.EndOk, hr]
        exact ⟨hhalt, hfault, hendPc, hendOp, hpc⟩ }

theorem exec_inv {i : Instr} {s t : State} (h : s.Inv) (hr : s.status = .running)
    (hop : s.codeByte s.pc = some i.opcode) (hexec : exec i s = .next t) : t.Inv := by
  rcases exec_next hexec with ⟨f, hf, hknown, rfl⟩ | ⟨c, hc, hend, hknown, rfl⟩ | hdone
  · exact h.enterFault hr hf hop fun he => absurd he hknown
  · exact h.enterHalt hr hc (fun he => absurd he hend) (fun _ => hop) fun he => absurd he hknown
  · exact h.completes hr (s.code_drop hop).1 hdone

/-- Settles O30, by what a step can do: the EndOfCode halt, an unknown opcode's halt or fault by STRICT_UNKNOWN, or an
instruction at its opcode in the code, each of which keeps the invariant. -/
theorem stepKeepsInvariant : Obligations.StepKeepsInvariant := by
  intro s t h hstep
  by_cases hr : s.status = .running
  · have hr' : ∀ op, (s.emit op).status = .running := fun op => (s.emit_status op).trans hr
    have hbyte : ∀ op, s.code[s.pc]? = some op → (s.emit op).codeByte (s.emit op).pc = some op := fun op hop => by
      simpa [State.codeByte] using hop
    rcases step_cases hr hstep with ⟨hpast, rfl⟩ | ⟨op, hop, _, ⟨hs, rfl⟩ | ⟨hs, rfl⟩⟩ | ⟨i, hop, _, _, hexec⟩
    · exact h.enterHalt hr nofun (fun _ => ⟨hpast, rfl⟩) (fun hne => absurd rfl hne) nofun
    · exact (h.emit op).enterHalt (hr' op) nofun nofun (fun _ => hbyte op hop) fun _ => (s.emit_cfg op).symm ▸ hs
    · exact (h.emit op).enterFault (hr' op) nofun (hbyte op hop) fun _ => (s.emit_cfg op).symm ▸ hs
    · exact exec_inv (h.emit i.opcode) (hr' i.opcode) (hbyte i.opcode hop) hexec
  · rw [step_ended hr] at hstep
    cases hstep
    exact h

/-! ### Reset and the runs -/

theorem State.boot_inv {cfg : Config} {code calldata : List Byte} (h : inputsInRange cfg code calldata = true) :
    (State.boot cfg code calldata).Inv := by
  simp only [inputsInRange, Bool.and_eq_true, decide_eq_true_eq] at h
  obtain ⟨⟨hcfg, hcode⟩, hcalldata⟩ := h
  have hmem : cfg.memInit.wf = true ∧ cfg.memInit.below cfg.memBytes = true := by
    simp only [Config.wf, Bool.and_eq_true] at hcfg
    obtain ⟨⟨hinit, _⟩, _⟩ := hcfg
    exact hinit
  exact
    { shaped := ⟨List.length_replicate, Nat.zero_le _⟩
      inputs := ⟨hcfg, hcode, hcalldata⟩
      mem := hmem
      width := ⟨Nat.two_pow_pos _, Nat.two_pow_pos _⟩
      ended := ⟨rfl, rfl, rfl, rfl, Nat.zero_le _⟩ }

/-- Settles O29: the host's reset state is itself a boot on admitted inputs. -/
theorem invariantAtReset : Obligations.InvariantAtReset :=
  ⟨fun _ _ _ => State.boot_inv, State.reset_eq_boot ▸ State.boot_inv (by decide)⟩

theorem Reachable.inv {s : State} (h : Reachable s) : s.Inv := by
  induction h with
  | boot cfg code calldata hin => exact State.boot_inv hin
  | step _ hstep ih => exact stepKeepsInvariant _ _ ih hstep

/-- Settles O31: the invariant gives the shape on which every step answers, and runs keep it. -/
theorem runsNeverStopTheModel : Obligations.RunsNeverStopTheModel :=
  ⟨fun _ h => step_answers h.shaped, fun _ => Reachable.inv⟩

end Sys2Proof.Machine
end

section
/-! PROOF. What every step and every instruction does: it runs what stands at the program counter, with one trace event
(spec/40_sequencer.md section 1, spec/10_state.md R46), and moves the cursor, memory and the program counter as the
rules let it (spec/10_state.md sections 2 to 4). -/

namespace Sys2Proof.Machine

/-! ### The step and its trace event -/

/-- Code that decodes to an instruction from the program counter on has the opcode there. -/
theorem codeByte_of_decode {s : State} {i : Instr} {rest : List Byte}
    (h : decode s.cfg (s.code.drop s.pc) = .instr i rest) : s.code[s.pc]? = some i.opcode := by
  obtain ⟨hbytes, _⟩ := encodeOfDecode _ _ _ _ h
  have hhead : (s.code.drop s.pc)[0]? = some i.opcode := by
    rw [hbytes]
    rfl
  simpa using hhead

/-- Settles O8: the program counter lies in the code, so the fetch is the decoder's answer, and the emitted event is the
opcode's. -/
theorem stepRunsTheDecodedInstruction : Obligations.StepRunsTheDecodedInstruction := by
  intro s i rest hr h
  obtain ⟨hp, _⟩ := s.code_drop (codeByte_of_decode h)
  rw [step_running hr, s.fetch_inside hp, h]
  rfl

theorem exec_trace {i : Instr} {s t : State} (h : exec i s = .next t) : t.trace = s.trace := by
  rcases exec_next h with ⟨f, _, _, rfl⟩ | ⟨c, _, _, _, rfl⟩ | hdone
  · rfl
  · rfl
  · rw [hdone.frame]

/-- The events after a fetch of `op` at the program counter. -/
theorem State.emit_trace_of_fetch {s : State} {op : Byte} (hr : s.status = .running) (hop : s.code[s.pc]? = some op) :
    (s.emit op).trace = if s.status = .running ∧ s.cfg.traceEnable = true
      then ((s.code[s.pc]?).map fun b => TraceEvent.mk s.pc b).toList ++ s.trace else s.trace := by
  simp [State.emit_trace, hr, hop]

/-- Settles O11: only the fetch of a byte emits an event; the end of the code and an ended run fetch none, and nothing
after the fetch touches the trace. -/
theorem tracePortEvents : Obligations.TracePortEvents := by
  intro s t h
  by_cases hr : s.status = .running
  · rcases step_cases hr h with ⟨hpast, rfl⟩ | ⟨op, hop, _, ⟨_, rfl⟩ | ⟨_, rfl⟩⟩ | ⟨i, hop, _, _, hexec⟩
    · simp [List.getElem?_eq_none hpast]
    · exact State.emit_trace_of_fetch hr hop
    · exact State.emit_trace_of_fetch hr hop
    · rw [exec_trace hexec, State.emit_trace_of_fetch hr hop]
  · rw [step_ended hr] at h
    cases h
    simp [hr]

/-! ### Memory, the cursor and the program counter -/

/-- Settles O33: a fault, a halt and the completion of any other instruction leave memory as it is. -/
theorem onlyMstoreWritesMemory : Obligations.OnlyMstoreWritesMemory := by
  intro i s t hi h a
  rcases exec_next h with ⟨f, _, _, rfl⟩ | ⟨c, _, _, _, rfl⟩ | hdone
  · rfl
  · rfl
  · rw [hdone.memory hi]

/-- Settles O35: only an instruction that completes goes on, and it moves the cursor by its rule. -/
theorem cursorMovesByRule : Obligations.CursorMovesByRule := by
  intro i s t hr h
  rcases exec_next h with ⟨f, _, _, rfl⟩ | ⟨c, _, _, _, rfl⟩ | hdone
  · exact ⟨nofun, fun _ => rfl⟩
  · exact ⟨nofun, fun _ => rfl⟩
  · exact ⟨fun _ => hdone.cursor, fun hended => absurd (hdone.status_eq.trans hr) hended⟩

/-- An instruction that completes writes the program counter through its PC_WIDTH bits. -/
theorem Completes.pc_lt {i : Instr} {s t : State} (h : Completes i s t) : t.pc < 2 ^ s.cfg.pcWidth := by
  rcases h.nextPc with ⟨hpc, _⟩ | ⟨_, p, _, hpc⟩
  · exact hpc ▸ s.toPc_lt _
  · exact hpc ▸ s.toPc_lt p

/-- Settles O50: a halt and a completion write the program counter through its PC_WIDTH bits, the rest leaves it. -/
theorem programCounterKeepsItsWidth : Obligations.ProgramCounterKeepsItsWidth := by
  intro s t h
  by_cases hr : s.status = .running
  · rcases step_pc_cases hr h with ⟨_, hpc⟩ | ⟨_, hpc⟩ | ⟨_, i, _, hdone⟩
    · exact .inr (hpc ▸ s.toPc_lt _)
    · exact .inl hpc
    · exact .inr (by simpa using hdone.pc_lt)
  · rw [step_ended hr] at h
    cases h
    exact .inl rfl

end Sys2Proof.Machine
end

section
/-! PROOF. Under JUMP_CHECK = Bounds the checks of a decoded instruction all pass exactly where it keeps to its bounds
(spec/70_reset_and_hazards.md R243). -/

namespace Sys2Proof.Machine

theorem State.faulted_iff_raised {s : State} : s.status = .faulted ↔ s.raised ≠ none := by
  simp [State.raised]

theorem not_targetRejected_iff {s : State} {dest : Nat} (hb : s.cfg.jumpCheck = .bounds) :
    ¬ TargetRejected s dest ↔
      dest < s.codeLen ∧ (s.cfg.jumpdestCheck = true → s.codeByte dest = some 0x5B) := by
  rw [TargetRejected, State.codeByte]
  by_cases hd : dest < s.codeLen
  · simp [hd, Nat.not_le.2 hd]
  · simp [hd, hb, Nat.not_lt.1 hd]

/-- The last memory-id whose two cells exist. -/
theorem memoryId_in_range_iff (id cells : Nat) : ¬ cells ≤ id / 16 + 1 ↔ id < (cells - 1) * 16 := by omega

/-- The instruction's own check passes, with its whole immediate in the code. -/
theorem ownFault_eq_none_iff {i : Instr} {s : State} (hb : s.cfg.jumpCheck = .bounds)
    (himm : s.pc + 1 + i.immLen ≤ s.codeLen) :
    ownFault i s = none ↔
      (i = .mstore ∨ i = .mload → (s.slot (s.sp - 1)).toNat < (s.cfg.memCells - 1) * 16) ∧
      (i = .jump ∨ (i = .jumpi ∧ s.slot (s.sp - 2) ≠ 0) → (s.slot (s.sp - 1)).toNat < s.codeLen ∧
        (s.cfg.jumpdestCheck = true → s.codeByte (s.slot (s.sp - 1)).toNat = some 0x5B)) := by
  rw [ownFault, if_neg fun h => absurd himm (Nat.not_le.2 h.2)]
  simp only [State.resolveTarget_eq_none_iff, State.fromTop_eq, ← not_targetRejected_iff hb,
    ← memoryId_in_range_iff]
  split
  · rename_i hmem
    exact iff_of_false nofun fun h => h.1 hmem.1 hmem.2
  · rename_i hmem
    split
    · rename_i hjump
      exact iff_of_false nofun fun h => h.2 hjump.1 hjump.2
    · rename_i hjump
      exact iff_of_true rfl ⟨fun hi hout => hmem ⟨hi, hout⟩, fun hi hrej => hjump ⟨hi, hrej⟩⟩

/-- No check of the instruction fails exactly where it keeps to its bounds. -/
theorem instrFault_eq_none_iff {i : Instr} {s : State} (hs : s.sp ≤ s.cfg.stackDepth)
    (hb : s.cfg.jumpCheck = .bounds) (himm : s.pc + 1 + i.immLen ≤ s.codeLen) :
    instrFault i s = none ↔ InBounds i s := by
  rw [instrFault]
  split
  · rename_i hlow
    exact iff_of_false nofun fun h => absurd h.need (Nat.not_le.2 hlow)
  · rename_i hneed
    split
    · rename_i hfull
      exact iff_of_false nofun fun h => absurd hfull.2 (Nat.ne_of_lt (h.room hfull.1))
    · rename_i hroom
      rw [ownFault_eq_none_iff hb himm]
      have hroom' : i.grow = true → s.sp < s.cfg.stackDepth := fun hg =>
        Nat.lt_of_le_of_ne hs fun he => hroom ⟨hg, he⟩
      exact ⟨fun ⟨hid, htarget⟩ => ⟨Nat.not_lt.1 hneed, hroom', himm, hid, htarget⟩,
        fun h => ⟨h.memoryId, h.target⟩⟩

/-- A decoded instruction's immediate lies in the code. -/
theorem immediate_in_code_of_decode {s : State} {i : Instr} {rest : List Byte}
    (h : decode s.cfg (s.code.drop s.pc) = .instr i rest) : s.pc + 1 + i.immLen ≤ s.codeLen := by
  obtain ⟨hbytes, _⟩ := encodeOfDecode _ _ _ _ h
  obtain ⟨hp, _⟩ := s.code_drop (codeByte_of_decode h)
  have hlen := congrArg List.length hbytes
  simp only [encode, List.length_drop, List.length_append, List.length_cons, beBytes_length] at hlen
  rw [State.codeLen] at hp ⊢
  omega

/-- Settles O41: a step raises what the first check of the decoded instruction that fails says, and none fails exactly
within the bounds. -/
theorem faultExactlyOutOfBounds : Obligations.FaultExactlyOutOfBounds := by
  intro s i rest h hr hb hdec
  obtain ⟨_, hw⟩ := encodeOfDecode _ _ _ _ hdec
  obtain ⟨t, ht⟩ := step_answers h.shaped
  refine ⟨t, ht, ?_⟩
  rw [State.faulted_iff_raised, step_raised hr (codeByte_of_decode hdec) ht, firstFault_opcode hw,
    Ne, instrFault_eq_none_iff h.shaped.2 hb (immediate_in_code_of_decode hdec)]

end Sys2Proof.Machine
end

section
/-! PROOF. What instructions and steps cannot tell apart: states that differ only in memory, in the switches of the
decoder, in dead slots or in the trace port go on alike (spec/10_state.md sections 3, 4 and 9). Each of the four is one
relation of states; that related states stay related is proved once, for any relation of this kind. -/

namespace Sys2Proof.Machine

/-! ### Relations of states that instructions keep -/

/-- The two states agree in what the instructions read, but for memory: the live slots, the registers that guide the
run and the inputs, of the configuration its sizes and its two jump parameters. -/
structure ReadsAlike (s s' : State) : Prop where
  pc : s'.pc = s.pc
  sp : s'.sp = s.sp
  length : s'.stack.length = s.stack.length
  slot : ∀ i, i < s.sp → s'.slot i = s.slot i
  code : s'.code = s.code
  calldata : s'.calldata = s.calldata
  stackDepth : s'.cfg.stackDepth = s.cfg.stackDepth
  memCells : s'.cfg.memCells = s.cfg.memCells
  mloadByteIndex : s'.cfg.mloadByteIndex = s.cfg.mloadByteIndex
  jumpCheck : s'.cfg.jumpCheck = s.cfg.jumpCheck
  jumpdestCheck : s'.cfg.jumpdestCheck = s.cfg.jumpdestCheck

/-- Related states read alike, and the same update of both keeps them related. -/
structure Congruent (R : State → State → Prop) : Prop where
  reads : ∀ {s s'}, R s s' → ReadsAlike s s'
  setPc : ∀ {s s'} (p), R s s' → R (s.setPc p) (s'.setPc p)
  setSlot : ∀ {s s'} (i v), R s s' → R (s.setSlot i v) (s'.setSlot i v)
  pop : ∀ {s s'} (n), R s s' → R (s.pop n) (s'.pop n)
  push : ∀ {s s'} (v), R s s' → R (s.push v) (s'.push v)
  enterFault : ∀ {s s'} (f op), R s s' → R (s.enterFault f op) (s'.enterFault f op)
  enterHalt : ∀ {s s'} (c op), R s s' → R (s.enterHalt c op) (s'.enterHalt c op)

/-- Related states have the same memory, and the same new memory in both keeps them related. -/
structure MemoryCongruent (R : State → State → Prop) : Prop where
  mem : ∀ {s s'}, R s s' → s'.mem = s.mem
  setMem : ∀ {s s'} (m), R s s' → R (s.setMem m) (s'.setMem m)

/-- Where the first outcome is a next state, the second is one related to it. -/
def Follows (R : State → State → Prop) (o o' : Result) : Prop :=
  ∀ t, o = .next t → ∃ t', o' = .next t' ∧ R t t'

theorem Follows.next {R : State → State → Prop} {t t' : State} (h : R t t') : Follows R (.next t) (.next t') := by
  rintro _ ⟨⟩
  exact ⟨t', rfl, h⟩

/-! ### What reads alike -/

theorem ReadsAlike.fromTop {s s' : State} (h : ReadsAlike s s') {d : Nat} (hd : 0 < d) (hsp : d ≤ s.sp) :
    s'.fromTop d = s.fromTop d := by
  rw [State.fromTop_eq, State.fromTop_eq, h.sp]
  exact h.slot _ (by omega)

theorem ReadsAlike.codeLen {s s' : State} (h : ReadsAlike s s') : s'.codeLen = s.codeLen :=
  congrArg List.length h.code

theorem ReadsAlike.calldataLen {s s' : State} (h : ReadsAlike s s') : s'.calldataLen = s.calldataLen :=
  congrArg List.length h.calldata

theorem ReadsAlike.calldataWord {s s' : State} (h : ReadsAlike s s') (off : Nat) :
    s'.calldataWord off = s.calldataWord off := by
  simp only [State.calldataWord, State.calldataByte, h.calldata]

theorem ReadsAlike.cellExists {s s' : State} (h : ReadsAlike s s') (c : Nat) : s'.cellExists c = s.cellExists c := by
  rw [State.cellExists, State.cellExists, h.memCells]

theorem ReadsAlike.resolveTarget {s s' : State} (h : ReadsAlike s s') (dest : Word) :
    s'.resolveTarget dest = s.resolveTarget dest := by
  rw [State.resolveTarget, State.resolveTarget, State.codeByte, State.codeByte, h.codeLen, h.jumpCheck,
    h.jumpdestCheck, h.code]

theorem ReadsAlike.stackFits {s s' : State} (h : ReadsAlike s s') {i : Instr} (hf : StackFits i s) : StackFits i s' := by
  rw [StackFits, State.Shaped, h.length, h.sp, h.stackDepth]
  exact hf

/-! ### The shared rules -/

section Rules

variable {R : State → State → Prop} {s s' : State}

theorem Congruent.setFromTop (hR : Congruent R) (h : R s s') (d : Nat) (v : Word) :
    R (s.setFromTop d v) (s'.setFromTop d v) := by
  rw [State.setFromTop, State.setFromTop, (hR.reads h).sp]
  exact hR.setSlot _ v h

theorem Congruent.advance (hR : Congruent R) (h : R s s') (n : Nat) : R (s.advance n) (s'.advance n) := by
  rw [State.advance, State.advance, (hR.reads h).pc]
  exact hR.setPc _ h

theorem Congruent.raise (hR : Congruent R) (h : R s s') (f : FaultCode) (i : Instr) :
    Follows R (raise f i s) (raise f i s') := .next (hR.enterFault f i.opcode h)

theorem Congruent.halt (hR : Congruent R) (h : R s s') (c : HaltCode) (i : Instr) :
    Follows R (halt c i s) (halt c i s') := .next (hR.enterHalt c i.opcode h)

/-- The stack checks read the cursor and the stack's size alone; past them the slots the instruction needs are live. -/
theorem Congruent.checked (hR : Congruent R) (h : R s s') {i : Instr} {body body' : Result}
    (hbody : StackFits i s → Follows R body body') : Follows R (checked i s body) (checked i s' body') := by
  have hr := hR.reads h
  intro t ht
  rcases checked_next ht with (⟨hlow, rfl⟩ | ⟨hneed, hgrow, hfull, rfl⟩) | ⟨hfits, hnext⟩
  · exact ⟨_, checked_of_underflow (hr.sp.symm ▸ hlow), hR.enterFault _ _ h⟩
  · exact ⟨_, checked_of_overflow (hr.sp.symm ▸ hneed) hgrow (by rw [hr.sp, hr.stackDepth, hfull]), hR.enterFault _ _ h⟩
  · rw [checked_fits (hr.stackFits hfits)]
    exact hbody hfits t hnext

theorem Congruent.binary (hR : Congruent R) (h : R s s') {i : Instr} (hneed : i.need = 2) (f : Word → Word → Word) :
    Follows R (binary i f s) (binary i f s') := by
  refine hR.checked h fun ⟨_, hn, _⟩ => ?_
  have hr := hR.reads h
  rw [hr.fromTop (d := 1) (by omega) (by omega), hr.fromTop (d := 2) (by omega) (by omega)]
  exact .next (hR.advance (hR.pop 1 (hR.setFromTop h 2 _)) 0)

/-- The unary rule, with functions that agree at every operand. -/
theorem Congruent.unary (hR : Congruent R) (h : R s s') {i : Instr} (hneed : i.need = 1) {g g' : Word → Word}
    (hg : ∀ a, g' a = g a) : Follows R (unary i g s) (unary i g' s') := by
  refine hR.checked h fun ⟨_, hn, _⟩ => ?_
  rw [(hR.reads h).fromTop (d := 1) (by omega) (by omega), hg]
  exact .next (hR.advance (hR.setFromTop h 1 _) 0)

theorem Congruent.pushImmediate (hR : Congruent R) (h : R s s') (i : Instr) (v : Word) :
    Follows R (pushImmediate i v s) (pushImmediate i v s') := by
  refine hR.checked h fun _ => ?_
  rw [(hR.reads h).codeLen, (hR.reads h).pc]
  split
  · exact hR.raise h _ i
  · exact .next (hR.advance (hR.push v h) _)

theorem Congruent.exec_push (hR : Congruent R) (h : R s s') {i : Instr} (hi : i.immLen ≠ 0) :
    Follows R (exec i s) (exec i s') := by
  rw [Machine.exec_push hi, Machine.exec_push hi]
  exact hR.pushImmediate h i _

theorem Congruent.dupSlot (hR : Congruent R) (h : R s s') {i : Instr} {d : Nat} (hd : 0 < d) (hneed : i.need = d) :
    Follows R (dupSlot i d s) (dupSlot i d s') := by
  refine hR.checked h fun ⟨_, hn, _⟩ => ?_
  rw [(hR.reads h).fromTop hd (by omega)]
  exact .next (hR.advance (hR.push _ h) 0)

theorem Congruent.swapSlots (hR : Congruent R) (h : R s s') {i : Instr} {d : Nat} (hneed : i.need = d + 1) :
    Follows R (swapSlots i d s) (swapSlots i d s') := by
  refine hR.checked h fun ⟨_, hn, _⟩ => ?_
  have hr := hR.reads h
  rw [hr.fromTop (d := 1) (by omega) (by omega), hr.fromTop (d := 1 + d) (by omega) (by omega)]
  exact .next (hR.advance (hR.setFromTop (hR.setFromTop h 1 _) (1 + d) _) 0)

theorem Congruent.calldatasize (hR : Congruent R) (h : R s s') :
    Follows R (execCalldatasize s) (execCalldatasize s') := by
  refine hR.checked h fun _ => ?_
  rw [(hR.reads h).calldataLen]
  exact .next (hR.advance (hR.push _ h) 0)

theorem Congruent.jumpTo (hR : Congruent R) (h : R s s') (i : Instr) (dest : Word) (n : Nat) :
    Follows R (jumpTo i dest n s) (jumpTo i dest n s') := by
  rw [Machine.jumpTo, Machine.jumpTo, (hR.reads h).resolveTarget]
  split
  · exact .next (hR.setPc _ (hR.pop n h))
  · exact hR.raise h _ i

theorem Congruent.jump (hR : Congruent R) (h : R s s') : Follows R (execJump s) (execJump s') := by
  refine hR.checked h fun ⟨_, hn, _⟩ => ?_
  rw [(hR.reads h).fromTop Nat.one_pos hn]
  exact hR.jumpTo h _ _ 1

theorem Congruent.jumpi (hR : Congruent R) (h : R s s') : Follows R (execJumpi s) (execJumpi s') := by
  refine hR.checked h fun ⟨_, hn, _⟩ => ?_
  have hn2 : 2 ≤ s.sp := hn
  rw [(hR.reads h).fromTop Nat.one_pos (Nat.le_of_succ_le hn2), (hR.reads h).fromTop Nat.two_pos hn2]
  split
  · exact hR.jumpTo h _ _ 2
  · exact .next (hR.advance (hR.pop 2 h) 0)

theorem Congruent.mstore (hR : Congruent R) (hM : MemoryCongruent R) (h : R s s') :
    Follows R (execMstore s) (execMstore s') := by
  refine hR.checked h fun ⟨_, hn, _⟩ => ?_
  have hr := hR.reads h
  have hn2 : 2 ≤ s.sp := hn
  rw [hr.fromTop Nat.one_pos (Nat.le_of_succ_le hn2), hr.fromTop Nat.two_pos hn2, hr.cellExists, hM.mem h]
  split
  · exact .next (hR.advance (hR.pop 2 (hM.setMem _ h)) 0)
  · exact hR.raise h _ _

theorem Congruent.mload (hR : Congruent R) (hM : MemoryCongruent R) (h : R s s') :
    Follows R (execMload s) (execMload s') := by
  refine hR.checked h fun ⟨_, hn, _⟩ => ?_
  have hr := hR.reads h
  rw [hr.fromTop Nat.one_pos hn, hr.cellExists, State.memRead, State.memRead, hM.mem h, hr.mloadByteIndex]
  split
  · exact .next (hR.advance (hR.setFromTop h 1 _) 0)
  · exact hR.raise h _ _

/-! ### Every instruction, and the step -/

/-- An instruction takes related states to related states; only MLOAD and MSTORE ask this of memory. -/
theorem Congruent.exec (hR : Congruent R) (i : Instr) (hM : i = .mload ∨ i = .mstore → MemoryCongruent R)
    (h : R s s') : Follows R (exec i s) (exec i s') := by
  cases i
  case stop => exact hR.halt h .stop .stop
  case ret => exact hR.halt h .ret .ret
  case revert => exact hR.halt h .revert .revert
  case invalid => exact hR.halt h .invalid .invalid
  case add | mul | sub | div | lt | eq => exact hR.binary h rfl _
  case iszero | not => exact hR.unary h rfl fun _ => rfl
  case calldataload => exact hR.unary h rfl fun off => (hR.reads h).calldataWord off.toNat
  case calldatasize => exact hR.calldatasize h
  case mload => exact hR.mload (hM (.inl rfl)) h
  case mstore => exact hR.mstore (hM (.inr rfl)) h
  case jump => exact hR.jump h
  case jumpi => exact hR.jumpi h
  case jumpdest => exact .next (hR.advance h 0)
  case push1 | push2 | push4 | push29 => exact hR.exec_push h nofun
  case dup1 | dup2 | dup3 => exact hR.dupSlot h (by decide) rfl
  case swap1 | swap2 | swap3 => exact hR.swapSlots h rfl

/-- Beyond the instructions: related states have the same status, fetch the same and end alike at an unknown opcode,
and the same event leaves them related. -/
structure StepCongruent (R : State → State → Prop) : Prop extends Congruent R, MemoryCongruent R where
  status : ∀ {s s'}, R s s' → s'.status = s.status
  fetch : ∀ {s s'}, R s s' → s'.fetch = s.fetch
  strictUnknown : ∀ {s s'}, R s s' → s'.cfg.strictUnknown = s.cfg.strictUnknown
  emit : ∀ {s s'} (op), R s s' → R (s.emit op) (s'.emit op)

theorem StepCongruent.unknownOpcode (hR : StepCongruent R) (h : R s s') (op : Byte) :
    Follows R (unknownOpcode op s) (unknownOpcode op s') := by
  rw [Machine.unknownOpcode, Machine.unknownOpcode, hR.strictUnknown h]
  split
  · exact .next (hR.enterFault _ op h)
  · exact .next (hR.enterHalt _ op h)

theorem StepCongruent.endOfCode (hR : StepCongruent R) (h : R s s') : Follows R (endOfCode s) (endOfCode s') :=
  .next (hR.enterHalt _ 0 h)

/-- A step takes related states to related states. -/
theorem StepCongruent.step (hR : StepCongruent R) (h : R s s') : Follows R (step s) (step s') := by
  by_cases hr : s.status = .running
  · rw [step_running hr, step_running ((hR.status h).trans hr), hR.fetch h]
    cases s.fetch with
    | empty => exact hR.endOfCode h
    | unknown op => exact hR.unknownOpcode (hR.emit op h) op
    | truncated i => exact hR.exec i (fun _ => hR.toMemoryCongruent) (hR.emit i.opcode h)
    | instr i rest => exact hR.exec i (fun _ => hR.toMemoryCongruent) (hR.emit i.opcode h)
  · rw [step_ended hr, step_ended (fun hr' => hr ((hR.status h).symm.trans hr'))]
    exact .next h

end Rules

/-! ### A change of the state that instructions do not see -/

/-- The map `φ` leaves what instructions read and commutes with their updates. -/
structure Unseen (φ : State → State) : Prop where
  reads : ∀ s, ReadsAlike s (φ s)
  setPc : ∀ s p, (φ s).setPc p = φ (s.setPc p)
  setSlot : ∀ s i v, (φ s).setSlot i v = φ (s.setSlot i v)
  pop : ∀ s n, (φ s).pop n = φ (s.pop n)
  push : ∀ s v, (φ s).push v = φ (s.push v)
  enterFault : ∀ s f op, (φ s).enterFault f op = φ (s.enterFault f op)
  enterHalt : ∀ s c op, (φ s).enterHalt c op = φ (s.enterHalt c op)

theorem Unseen.congruent {φ : State → State} (h : Unseen φ) : Congruent fun s s' => s' = φ s where
  reads e := e ▸ h.reads _
  setPc p e := e ▸ h.setPc _ p
  setSlot i v e := e ▸ h.setSlot _ i v
  pop n e := e ▸ h.pop _ n
  push v e := e ▸ h.push _ v
  enterFault f op e := e ▸ h.enterFault _ f op
  enterHalt c op e := e ▸ h.enterHalt _ c op

theorem Follows.eq_next {φ : State → State} {o o' : Result} {t : State} (h : Follows (fun s s' => s' = φ s) o o')
    (ht : o = .next t) : o' = .next (φ t) := by
  obtain ⟨_, ho', rfl⟩ := h t ht
  exact ho'

theorem unseen_setMem (m : Memory) : Unseen (·.setMem m) :=
  ⟨fun _ => ⟨rfl, rfl, rfl, fun _ _ => rfl, rfl, rfl, rfl, rfl, rfl, rfl, rfl⟩, fun _ _ => rfl, fun _ _ _ => rfl,
    fun _ _ => rfl, fun _ _ => rfl, fun _ _ _ => rfl, fun _ _ _ => rfl⟩

/-- Settles O34: memory is unseen by all but the two instructions excepted. -/
theorem othersIgnoreMemory : Obligations.OthersIgnoreMemory := by
  intro i s t m hload hstore h
  exact ((unseen_setMem m).congruent.exec i (fun hi => (hi.elim hload hstore).elim) rfl).eq_next h

theorem unseen_withSwitches (hasNot hasJump : Bool) (mode : MloadMode) (strict : Bool) :
    Unseen (·.withSwitches hasNot hasJump mode strict) :=
  ⟨fun _ => ⟨rfl, rfl, rfl, fun _ _ => rfl, rfl, rfl, rfl, rfl, rfl, rfl, rfl⟩, fun _ _ => rfl, fun _ _ _ => rfl,
    fun _ _ => rfl, fun _ _ => rfl, fun _ _ _ => rfl, fun _ _ _ => rfl⟩

theorem memoryCongruent_withSwitches (hasNot hasJump : Bool) (mode : MloadMode) (strict : Bool) :
    MemoryCongruent fun s s' => s' = s.withSwitches hasNot hasJump mode strict where
  mem e := e ▸ rfl
  setMem _ e := e ▸ rfl

/-- Settles O49: the four switches are unseen by every instruction. -/
theorem switchesOnlyChangeDecoding : Obligations.SwitchesOnlyChangeDecoding := by
  intro i s t hasNot hasJump mode strict h
  exact ((unseen_withSwitches hasNot hasJump mode strict).congruent.exec i
    (fun _ => memoryCongruent_withSwitches hasNot hasJump mode strict) rfl).eq_next h

/-! ### The trace port -/

theorem unseen_untraced : Unseen State.untraced :=
  ⟨fun _ => ⟨rfl, rfl, rfl, fun _ _ => rfl, rfl, rfl, rfl, rfl, rfl, rfl, rfl⟩, fun _ _ => rfl, fun _ _ _ => rfl,
    fun _ _ => rfl, fun _ _ => rfl, fun _ _ _ => rfl, fun _ _ _ => rfl⟩

/-- An event is the trace's alone, and switched off the port emits none. -/
theorem State.untraced_emit (s : State) (op : Byte) : s.untraced.emit op = (s.emit op).untraced := by
  by_cases h : s.cfg.traceEnable = true <;> simp [State.emit, State.untraced, h]

/-- No condition of the opcode table reads TRACE_ENABLE (R76). -/
theorem decodeOp_traceEnable (cfg : Config) (on : Bool) (b : Byte) :
    decodeOp { cfg with traceEnable := on } b = decodeOp cfg b := by
  have hw : ∀ i : Instr, i.wellFormed { cfg with traceEnable := on } = i.wellFormed cfg := by
    intro i
    cases i <;> rfl
  simp only [decodeOp, hw]

theorem State.untraced_fetch (s : State) : s.untraced.fetch = s.fetch := by
  have hdec : ∀ bytes, decode s.untraced.cfg bytes = decode s.cfg bytes := by
    intro bytes
    cases bytes with
    | nil => rfl
    | cons b rest => rw [decode_cons_eq, decode_cons_eq, State.untraced, decodeOp_traceEnable]
  by_cases hp : s.codeLen ≤ s.pc
  · rw [s.fetch_past hp, s.untraced.fetch_past hp]
  · rw [s.fetch_inside (Nat.not_le.1 hp), s.untraced.fetch_inside (Nat.not_le.1 hp), hdec]
    rfl

theorem stepCongruent_untraced : StepCongruent fun s s' => s' = s.untraced where
  toCongruent := unseen_untraced.congruent
  mem e := e ▸ rfl
  setMem _ e := e ▸ rfl
  status e := e ▸ rfl
  fetch e := e ▸ State.untraced_fetch _
  strictUnknown e := e ▸ rfl
  emit op e := e ▸ State.untraced_emit _ op

/-- Settles O43: a step keeps a state and its silent copy so related. -/
theorem traceHasNoEffect : Obligations.TraceHasNoEffect :=
  fun _ _ h => (stepCongruent_untraced.step rfl).eq_next h

/-! ### Dead slots -/

theorem SameLive.cfg {s s' : State} (h : SameLive s s') : s'.cfg = s.cfg := by
  obtain ⟨_, _, hcfg⟩ := h.inputs
  exact hcfg

theorem SameLive.status {s s' : State} (h : SameLive s s') : s'.status = s.status := by
  obtain ⟨hstatus, _⟩ := h.ended
  exact hstatus

theorem SameLive.slot {s s' : State} (h : SameLive s s') {i : Nat} (hi : i < s.sp) : s'.slot i = s.slot i := by
  simp [State.slot, h.live i hi]

theorem SameLive.fetch {s s' : State} (h : SameLive s s') : s'.fetch = s.fetch := by
  obtain ⟨hcode, _, hcfg⟩ := h.inputs
  rw [State.fetch, State.fetch, State.codeLen, State.codeLen, hcode, hcfg, h.pc]

theorem SameLive.readsAlike {s s' : State} (h : SameLive s s') : ReadsAlike s s' := by
  obtain ⟨hcode, hcalldata, hcfg⟩ := h.inputs
  exact ⟨h.pc, h.sp, h.length, fun _ => h.slot, hcode, hcalldata, by rw [hcfg], by rw [hcfg], by rw [hcfg],
    by rw [hcfg], by rw [hcfg]⟩

theorem SameLive.toPc {s s' : State} (h : SameLive s s') (p : Nat) : s'.toPc p = s.toPc p := by
  rw [State.toPc, State.toPc, h.cfg]

theorem SameLive.setPc {s s' : State} (p : Nat) (h : SameLive s s') : SameLive (s.setPc p) (s'.setPc p) :=
  { h with pc := h.toPc p }

/-- Fewer live slots are live slots still. -/
theorem SameLive.pop {s s' : State} (n : Nat) (h : SameLive s s') : SameLive (s.pop n) (s'.pop n) :=
  { h with sp := by simp [h.sp], live := fun i hi => h.live i (Nat.lt_of_lt_of_le hi (Nat.sub_le _ _)) }

/-- Two stacks of one size that agree at `i` agree there after the same write to both. -/
theorem getElem?_set_congr {l l' : List Word} (hlen : l'.length = l.length) {i j : Nat} (v : Word)
    (h : i ≠ j → l'[i]? = l[i]?) : (l'.set j v)[i]? = (l.set j v)[i]? := by
  rw [List.getElem?_set, List.getElem?_set, hlen]
  by_cases hij : j = i
  · simp [hij]
  · rw [if_neg hij, if_neg hij, h (Ne.symm hij)]

theorem SameLive.setSlot {s s' : State} (j : Nat) (v : Word) (h : SameLive s s') :
    SameLive (s.setSlot j v) (s'.setSlot j v) :=
  { h with
    length := by simp [h.length]
    live := fun i hi => getElem?_set_congr h.length v fun _ => h.live i hi }

/-- The slot a push makes live is the one it writes. -/
theorem SameLive.push {s s' : State} (v : Word) (h : SameLive s s') : SameLive (s.push v) (s'.push v) :=
  { h with
    sp := by simp [h.sp]
    length := by simp [h.length]
    live := fun i hi => by
      rw [State.push_stack, State.push_stack, h.sp]
      exact getElem?_set_congr h.length v fun hne => h.live i (Nat.lt_of_le_of_ne (Nat.le_of_lt_succ hi) hne) }

theorem SameLive.setMem {s s' : State} (m : Memory) (h : SameLive s s') : SameLive (s.setMem m) (s'.setMem m) :=
  { h with mem := rfl }

theorem SameLive.enterFault {s s' : State} (f : FaultCode) (op : Byte) (h : SameLive s s') :
    SameLive (s.enterFault f op) (s'.enterFault f op) := by
  obtain ⟨_, hhalt, _, _, _⟩ := h.ended
  exact { h with ended := ⟨rfl, hhalt, rfl, h.pc, rfl⟩ }

theorem SameLive.enterHalt {s s' : State} (c : HaltCode) (op : Byte) (h : SameLive s s') :
    SameLive (s.enterHalt c op) (s'.enterHalt c op) := by
  obtain ⟨_, _, hfault, _, _⟩ := h.ended
  have hpc : s'.toPc s'.codeLen = s.toPc s.codeLen := by rw [h.readsAlike.codeLen, h.toPc]
  exact { h with pc := hpc, ended := ⟨rfl, rfl, hfault, h.pc, rfl⟩ }

theorem SameLive.emit {s s' : State} (op : Byte) (h : SameLive s s') : SameLive (s.emit op) (s'.emit op) := by
  have hon : s'.cfg.traceEnable = s.cfg.traceEnable := congrArg Config.traceEnable h.cfg
  rw [State.emit, State.emit, hon]
  split
  · exact { h with trace := by simp [h.pc, h.trace] }
  · exact h

theorem stepCongruent_sameLive : StepCongruent SameLive where
  reads := SameLive.readsAlike
  setPc := SameLive.setPc
  setSlot := SameLive.setSlot
  pop := SameLive.pop
  push := SameLive.push
  enterFault := SameLive.enterFault
  enterHalt := SameLive.enterHalt
  mem := SameLive.mem
  setMem := SameLive.setMem
  status := SameLive.status
  fetch := SameLive.fetch
  strictUnknown h := congrArg Config.strictUnknown h.cfg
  emit := SameLive.emit

theorem SameLive.outputs_eq {s s' : State} (h : SameLive s s') : s'.outputs = s.outputs := by
  obtain ⟨hstatus, hhalt, hfault, hendPc, hendOp⟩ := h.ended
  rw [State.outputs, State.outputs, hstatus, hhalt, hfault, hendPc, hendOp, h.pc, h.sp]

theorem SameLive.observeSlot_eq {s s' : State} (h : SameLive s s') (i : Nat) : s'.observeSlot i = s.observeSlot i := by
  rw [State.observeSlot, State.observeSlot, h.status, h.sp]
  by_cases hi : i < s.sp
  · rw [h.live i hi]
  · simp only [hi, if_false]

theorem SameLive.observeByte_eq {s s' : State} (h : SameLive s s') (a : Nat) : s'.observeByte a = s.observeByte a := by
  rw [State.observeByte, State.observeByte, State.memRead, State.memRead, h.status, h.cfg, h.mem]

/-- Settles O42: a step keeps two states alike but for dead slots, which neither port nor output shows. -/
theorem deadSlotsAreUnobservable : Obligations.DeadSlotsAreUnobservable := by
  intro s s' t _ h hstep
  obtain ⟨t', hstep', h'⟩ := stepCongruent_sameLive.step h t hstep
  exact ⟨t', hstep', h', h'.outputs_eq, h'.observeSlot_eq, h'.observeByte_eq⟩

end Sys2Proof.Machine
end

section
/-! PROOF. PUSHN at every immediate (spec/41_push.md), DUP1 with SWAP1 (spec/42_stack.md), and MSTORE with MLOAD
(spec/20_memory.md sections 2 and 3, spec/44_memory_ops.md), each from the rules of its instructions. -/

namespace Sys2Proof.Machine

/-! ### PUSHN -/

/-- No immediate is longer than a slot. -/
theorem Instr.immLen_le_32 (i : Instr) : i.immLen ≤ 32 := by
  by_cases hi : i.immLen = 0
  · omega
  · exact pushWidths_le_32 _ (opcode_mem_pushWidths_iff.2 ⟨hi, rfl⟩)

/-- A slot holds every immediate whole. -/
theorem toNat_ofNat_immValue (i : Instr) : (BitVec.ofNat 256 i.immValue).toNat = i.immValue := by
  have hlt : i.immValue < 256 ^ 32 :=
    Nat.lt_of_lt_of_le i.immValue_lt (Nat.pow_le_pow_right (by decide) (Instr.immLen_le_32 i))
  rw [BitVec.toNat_ofNat]
  exact Nat.mod_eq_of_lt hlt

/-- The rule of PUSHN, at every width, of an instruction with an immediate. -/
theorem pushRule_of_immLen {i : Instr} (hi : i.immLen ≠ 0) : PushRule i i.opcode i.immLen i.immValue := by
  have hneed : ∀ n, i.need ≤ n := fun n => (need_of_immLen hi).symm ▸ Nat.zero_le n
  refine fun s => ⟨fun hfull => ?overflow, fun hs hroom hout => ?cutShort, fun hs hroom hin => ?push⟩
  case overflow =>
    exact ⟨_, (exec_push hi s).trans (checked_of_overflow (hneed _) (grow_of_immLen hi) hfull),
      s.enterFault_faultsWith .stackOverflow i.opcode⟩
  case cutShort =>
    exact ⟨_, (exec_push hi s).trans ((checked_of_ok hs (hneed _) fun _ => hroom).trans (if_pos hout)),
      s.enterFault_faultsWith .immediateOutOfRange i.opcode⟩
  case push =>
    have hslot := State.slot_push_self (hs.1.symm ▸ hroom) (BitVec.ofNat 256 i.immValue)
    exact ⟨_, (exec_push hi s).trans ((checked_of_ok hs (hneed _) fun _ => hroom).trans (if_neg (Nat.not_lt.2 hin))),
      (congrArg BitVec.toNat hslot).trans (toNat_ofNat_immValue i), rfl, .of_toPc rfl, fun _ => rfl,
      s.advance_push_frameBut _ _⟩

/-- Settles O17: each PUSH is the rule at its own width. -/
theorem pushPushesImmediate : Obligations.PushPushesImmediate :=
  ⟨fun imm => pushRule_of_immLen (i := .push1 imm) nofun, fun imm => pushRule_of_immLen (i := .push2 imm) nofun,
    fun imm => pushRule_of_immLen (i := .push4 imm) nofun, fun imm => pushRule_of_immLen (i := .push29 imm) nofun⟩

/-! ### DUP1, then SWAP1 -/

/-- A state with as many slots under the same inputs, and a cursor within them, is shaped. -/
theorem State.Shaped.of_frameBut {s t : State} {touched : List Nat} (hs : s.Shaped) (h : FrameBut touched s t)
    (hsp : t.sp ≤ s.cfg.stackDepth) : t.Shaped := by
  obtain ⟨⟨hlen, _⟩, _, ⟨_, _, hcfg⟩, _⟩ := h
  rw [State.Shaped, hcfg]
  exact ⟨hlen.trans hs.1, hsp⟩

/-- Settles O44, by the rules of the two: DUP1 copies slot 0 to slot 1, and the exchange of equal slots shows none. -/
theorem dupThenSwapKeepsValue : Obligations.DupThenSwapKeepsValue := by
  intro s hs hsp hdepth
  obtain ⟨⟨_, hdup⟩, _, _⟩ := dupCopiesSlot
  obtain ⟨⟨_, hswap⟩, _, _⟩ := swapExchangesSlots
  obtain ⟨_, _, hcopies⟩ := hdup s
  obtain ⟨t, ht, hcopy, htsp, _, _, hframe⟩ := hcopies hs (by omega) (by omega)
  have ⟨⟨_, hslots⟩, _⟩ := hframe
  have hkept : t.stack[0]? = s.stack[0]? := hslots 0 (by simp [hsp])
  simp only [hsp] at hcopy htsp
  obtain ⟨_, hexchanges⟩ := hswap t
  obtain ⟨u, hu, htop, hsecond, husp, _⟩ := hexchanges (hs.of_frameBut hframe (by omega)) (by omega)
  simp only [htsp] at htop hsecond husp
  exact ⟨t, u, ht, hu, husp, hsecond.trans hcopy, htop.trans hkept⟩

/-! ### MSTORE, then MLOAD -/

/-- The bytes of the word that MSTORE stores, from the first of its two cells on. -/
theorem read_storeWord_word {m : Memory} (h : m.wf = true) (c : Nat) (v : Word) {k : Nat} (hk : k < 32) :
    (storeWord m c v).read (16 * c + k) = wordByte v k := by
  rw [read_storeWord h, if_pos (by omega), Nat.add_sub_cancel_left]

/-- MLOAD of an id in range, which stands in slot n at the top, reads the byte MLOAD_BYTE_INDEX of the id's second
cell. -/
theorem exec_mload_of_top {s : State} {id : Word} {n : Nat} (hs : s.Shaped) (hsp : s.sp = n + 1)
    (hid : s.slot n = id) (hr : id.toNat / 16 + 1 < s.cfg.memCells) :
    ∃ u, exec .mload s = .next u ∧
      (u.slot n).toNat = (s.mem.read (16 * (id.toNat / 16 + 1) + s.cfg.mloadByteIndex.val)).toNat := by
  have hn : s.sp - 1 = n := by omega
  have htop : s.fromTop 1 = id := by rw [State.fromTop_eq, hn, hid]
  have hload := execMload_reads (stackFits_mload hs (by omega)) (by rw [htop]; exact hr)
  rw [htop, s.memRead_eq] at hload
  refine ⟨_, (exec_mload s).trans hload, ?_⟩
  have hslot := State.slot_setFromTop_self (hs.sub_lt_length Nat.one_pos (by omega))
    (zext256 (s.mem.read (16 * (id.toNat / 16 + 1) + s.cfg.mloadByteIndex.val)))
  rw [hn] at hslot
  exact (congrArg BitVec.toNat hslot).trans (toNat_zext256_byte _)

/-- Settles O45: MSTORE leaves the word in its two cells, and the byte MLOAD reads is one of the second. -/
theorem storedWordReadsBack : Obligations.StoredWordReadsBack := by
  intro s id v n hs hwf hsp hid hv hr
  have htop : s.fromTop 1 = id := by rw [State.fromTop_eq, hsp, ← hid]; rfl
  have hsecond : s.fromTop 2 = v := by rw [State.fromTop_eq, hsp, ← hv]; rfl
  have hstore := execMstore_stores (stackFits_mstore hs (by omega)) (by rw [htop]; exact hr)
  rw [htop, hsecond] at hstore
  have hword := fun k hk => read_storeWord_word hwf (id.toNat / 16) v (k := k) hk
  generalize storeWord s.mem (id.toNat / 16) v = m at hstore hword
  refine ⟨_, (exec_mstore s).trans hstore, fun haligned k hk => ?_, ?_⟩
  · have haddr : 16 * (id.toNat / 16) = id.toNat := by omega
    simpa [haddr] using hword k hk
  · obtain ⟨hlength, hdepth⟩ := hs
    have hn : n < s.stack.length := by omega
    have hshaped : (((((s.setMem m).pop 2).advance 0).setSlot n id).setSp (n + 1)).Shaped :=
      ⟨by simpa using hlength, by simp; omega⟩
    obtain ⟨u, hload, hbyte⟩ := exec_mload_of_top hshaped rfl
      ((State.slot_setSlot _ n n id hn).trans (if_pos rfl)) hr
    refine ⟨u, hload, hbyte.trans (congrArg BitVec.toNat ?_)⟩
    have haddr : 16 * (id.toNat / 16 + 1) + s.cfg.mloadByteIndex.val =
        16 * (id.toNat / 16) + (16 + s.cfg.mloadByteIndex.val) := by omega
    exact (congrArg m.read haddr).trans (hword _ (by omega))

end Sys2Proof.Machine
end

section
/-! PROOF. What the block shows outside (spec/10_state.md section 9): the result outputs, the observation ports, and
the refusal of changed inputs (spec/70_reset_and_hazards.md section 2). -/

namespace Sys2Proof.Machine

/-! ### The numeric codes (R28 to R30) -/

/-- The numbers are the places in the rules' order. -/
theorem Status.toNat_bits (st : Status) : st.bits.toNat = [Status.running, .halted, .faulted].idxOf st := by
  cases st <;> decide

theorem HaltCode.toNat_bits (c : HaltCode) :
    c.bits.toNat = [HaltCode.none, .endOfCode, .stop, .ret, .revert, .invalid, .unknownOpcode].idxOf c := by
  cases c <;> decide

theorem FaultCode.toNat_bits (f : FaultCode) :
    f.bits.toNat = [FaultCode.none, .stackUnderflow, .stackOverflow, .memoryOutOfRange, .invalidJumpTarget,
      .immediateOutOfRange, .unknownOpcode].idxOf f := by
  cases f <;> decide

theorem Status.bits_lt (st : Status) : st.bits.toNat < 3 := by cases st <;> decide
theorem HaltCode.bits_lt (c : HaltCode) : c.bits.toNat < 7 := by cases c <;> decide
theorem FaultCode.bits_lt (f : FaultCode) : f.bits.toNat < 7 := by cases f <;> decide

theorem Status.bits_eq_zero_iff {st : Status} : st.bits = 0 ↔ st = .running := by cases st <;> decide
theorem Status.bits_eq_one_iff {st : Status} : st.bits = 1 ↔ st = .halted := by cases st <;> decide
theorem Status.bits_eq_two_iff {st : Status} : st.bits = 2 ↔ st = .faulted := by cases st <;> decide
theorem HaltCode.bits_eq_zero_iff {c : HaltCode} : c.bits = 0 ↔ c = .none := by cases c <;> decide
theorem HaltCode.bits_eq_one_iff {c : HaltCode} : c.bits = 1 ↔ c = .endOfCode := by cases c <;> decide
theorem FaultCode.bits_eq_zero_iff {f : FaultCode} : f.bits = 0 ↔ f = .none := by cases f <;> decide

/-! ### The result outputs (R44) -/

/-- Settles O46: the codes are the rules' numbers, and what each register shows is what the invariant says under the
STATUS. -/
theorem resultOutputsSayHowTheRunEnded : Obligations.ResultOutputsSayHowTheRunEnded := by
  intro s h
  refine ⟨s.status.toNat_bits, s.haltCode.toNat_bits, s.faultCode.toNat_bits, s.status.bits_lt, s.haltCode.bits_lt,
    s.faultCode.bits_lt, ?_⟩
  simp only [State.outputs, ne_eq, Status.bits_eq_zero_iff, Status.bits_eq_one_iff, Status.bits_eq_two_iff,
    HaltCode.bits_eq_zero_iff, HaltCode.bits_eq_one_iff, FaultCode.bits_eq_zero_iff]
  have hend := h.ended
  rw [State.EndOk] at hend
  cases hst : s.status with
  | running =>
    rw [hst] at hend
    obtain ⟨hhalt, hfault, hpc, hop, _⟩ := hend
    simp [hhalt, hfault, hpc, hop]
  | halted =>
    rw [hst] at hend
    obtain ⟨hhalt, hfault, hpc, hendOfCode, hother, _⟩ := hend
    simpa [hhalt, hfault, hpc] using ⟨hendOfCode, hother⟩
  | faulted =>
    rw [hst] at hend
    obtain ⟨hfault, hhalt, hpc, hbyte, _⟩ := hend
    simp [hhalt, hfault, hpc, hbyte]

/-! ### The observation ports (R45) -/

theorem State.observeSlot_live {s : State} (hs : s.Shaped) (hr : s.status ≠ .running) {i : Nat} (hi : i < s.sp) :
    s.observeSlot i = some (s.slot i) := by
  obtain ⟨hlength, hsp⟩ := hs
  rw [State.observeSlot, if_neg hr, if_pos hi, s.slot_eq (by omega)]

theorem State.observeSlot_dead {s : State} {i : Nat} (hi : s.sp ≤ i) : s.observeSlot i = none := by
  simp [State.observeSlot, Nat.not_lt.2 hi]

theorem Config.memBytes_eq (cfg : Config) : cfg.memBytes = 16 * cfg.memCells := Nat.mul_comm ..

/-- R58: cell a / 16, byte a % 16 is the flat byte a. -/
theorem State.observeByte_inside {s : State} (hr : s.status ≠ .running) {a : Nat} (ha : a < 16 * s.cfg.memCells) :
    s.observeByte a = some (s.mem.read a) := by
  rw [State.observeByte, if_neg hr, Config.memBytes_eq, if_pos ha, State.memRead_eq, Nat.div_add_mod]

theorem State.observeByte_past {s : State} {a : Nat} (ha : 16 * s.cfg.memCells ≤ a) : s.observeByte a = none := by
  simp [State.observeByte, Config.memBytes_eq, Nat.not_lt.2 ha]

/-- Settles O47: each port's test of STATUS, then of the address. -/
theorem observationAfterTheRun : Obligations.ObservationAfterTheRun := by
  intro s hs
  exact ⟨fun hr => ⟨fun _ => State.observeSlot_live hs hr, fun _ => State.observeByte_inside hr⟩,
    fun _ => State.observeSlot_dead, fun _ => State.observeByte_past, fun hr => ⟨fun _ => if_pos hr, fun _ => if_pos hr⟩⟩

/-! ### The control inputs (R235) -/

/-- Settles O48: a running block accepts the inputs of its run alone. -/
theorem changedInputsRefused : Obligations.ChangedInputsRefused := by
  intro s cfg code calldata hr hchanged
  have hdiffer : ¬ (cfg = s.cfg ∧ code = s.code ∧ calldata = s.calldata) := by
    rintro ⟨hcfg, hcode, hcalldata⟩
    rcases hchanged with h | h | h
    · exact h hcfg
    · exact h hcode
    · exact h hcalldata
  rw [drive, if_pos hr, if_neg hdiffer]

end Sys2Proof.Machine
end
